-- ==== Sys2Proof/Word.lean ====
section
/-!
DEFINITION. The word types of TQ-CMD version 1 (spec/30_encoding.md R50, R51, R57; spec/10_state.md R14).
Every value is an unsigned integer of a stated width (spec/00_scope.md section 7), so each is a bit vector.
-/

namespace Sys2Proof

/-- One byte of the packed codebook (R34). -/
abbrev Byte := BitVec 8

/-- A command word, `cw[71:0]`, as the `cmd` port carries it (R50, R51). -/
abbrev CmdWord := BitVec 72

/-- The 64-bit operand `arg = cw[63:0]`, and the 64-bit data of a response (R51, R57). It also carries a
tile or a codeword: an `L`-bit value in bits `L-1:0`, zero above (R32). -/
abbrev Data := BitVec 64

/-- A response word, `rw[67:0]`, as the `rsp` port carries it (R50, R57). -/
abbrev RspWord := BitVec 68

/-- The value of a control and status register (R14). -/
abbrev CsrWord := BitVec 32

end Sys2Proof
end

