-- ==== Sys2Proof/Syntax.lean ====
section
/-!
DEFINITION. The commands of TQ-CMD version 1: one constructor per row of spec/opcode_table.json
(spec/30_encoding.md R51, R54), with the operand fields of the row's format.
The opcode alone selects the command and its format, and a "must be zero" bit never selects a different command
(R51, R52). So a constructor also carries its format's "must be zero" bits: a word that has one of them set is
still this command, and the command answers `BAD_OPERAND` (R53 step 3).
-/

namespace Sys2Proof

/-- A command. `mbz`, `mbzHi` and `valMbz` are the "must be zero" fields of the format (R51). -/
inductive Instr where
  /-- `NOP`, opcode 0x00, format Z (R112). -/
  | nop (mbz : BitVec 64)
  /-- `SRST`, opcode 0x01, format Z: soft reset (R113). -/
  | srst (mbz : BitVec 64)
  /-- `RDCSR`, opcode 0x02, format C: read a CSR; `val` must be zero (R114). -/
  | rdcsr (mbzHi : BitVec 24) (csr : BitVec 8) (valMbz : BitVec 32)
  /-- `WRCSR`, opcode 0x03, format C: write `CTRL` (R115). -/
  | wrcsr (mbzHi : BitVec 24) (csr : BitVec 8) (val : BitVec 32)
  /-- `QTILE`, opcode 0x10, format T: `tile = arg[L-1:0]`, and `arg[63:L]` must be zero (R75). -/
  | qtile (arg : BitVec 64)
  /-- `LOOKUP`, opcode 0x11, format I: `imm` is a codeword index (R106). -/
  | lookup (mbz : BitVec 48) (imm : BitVec 16)
  /-- `LOOKUPB`, opcode 0x12, format I: `imm` is a byte address (R107). -/
  | lookupb (mbz : BitVec 48) (imm : BitVec 16)
  /-- `RSYM`, opcode 0x20, format I: `imm` is a symbol (R90). -/
  | rsym (mbz : BitVec 48) (imm : BitVec 16)
  /-- `REND`, opcode 0x21, format Z: end the sequence (R91). -/
  | rend (mbz : BitVec 64)
deriving DecidableEq, Repr

end Sys2Proof
end

