-- ==== Sys2Proof/Decode.lean ====
section
/-!
DEFINITION. The decoder and the encoder of command words (spec/30_encoding.md R51, R52, R54, R55).
A command word is 72 bits and is presented in parallel: it has no byte order (spec/20_memory.md R37).
-/

namespace Sys2Proof

/-- Why a word is no command. The dispatch answers it with the error `ILLEGAL_OP` (R53 step 2). -/
inductive DecodeError where
  /-- The opcode is one of the 247 reserved values of R55. -/
  | illegalOp (op : BitVec 8)
deriving DecidableEq, Repr

/-- `op = cw[71:64]` (R51). -/
def CmdWord.op (cw : CmdWord) : BitVec 8 := cw.extractLsb' 64 8

/-- `arg = cw[63:0]` (R51). -/
def CmdWord.arg (cw : CmdWord) : BitVec 64 := cw.extractLsb' 0 64

/-- Format C: `arg[63:40]`, `csr = arg[39:32]`, `val = arg[31:0]` (R51, R52). -/
def argMbzC (arg : BitVec 64) : BitVec 24 := arg.extractLsb' 40 24
def argCsr (arg : BitVec 64) : BitVec 8 := arg.extractLsb' 32 8
def argVal (arg : BitVec 64) : BitVec 32 := arg.extractLsb' 0 32

/-- Format I: `arg[63:16]`, `imm = arg[15:0]` (R51, R52). -/
def argMbzI (arg : BitVec 64) : BitVec 48 := arg.extractLsb' 16 48
def argImm (arg : BitVec 64) : BitVec 16 := arg.extractLsb' 0 16

/-- The decoder: the opcode byte alone selects the command (R51, R54), every other opcode is reserved (R55). -/
def decode (cw : CmdWord) : Except DecodeError Instr :=
  match cw.op.toNat with
  | 0x00 => .ok (.nop cw.arg)
  | 0x01 => .ok (.srst cw.arg)
  | 0x02 => .ok (.rdcsr (argMbzC cw.arg) (argCsr cw.arg) (argVal cw.arg))
  | 0x03 => .ok (.wrcsr (argMbzC cw.arg) (argCsr cw.arg) (argVal cw.arg))
  | 0x10 => .ok (.qtile cw.arg)
  | 0x11 => .ok (.lookup (argMbzI cw.arg) (argImm cw.arg))
  | 0x12 => .ok (.lookupb (argMbzI cw.arg) (argImm cw.arg))
  | 0x20 => .ok (.rsym (argMbzI cw.arg) (argImm cw.arg))
  | 0x21 => .ok (.rend cw.arg)
  | _ => .error (.illegalOp cw.op)

/-- The opcode of each command (R54). -/
def Instr.opcode : Instr → BitVec 8
  | .nop _ => 0x00#8
  | .srst _ => 0x01#8
  | .rdcsr _ _ _ => 0x02#8
  | .wrcsr _ _ _ => 0x03#8
  | .qtile _ => 0x10#8
  | .lookup _ _ => 0x11#8
  | .lookupb _ _ => 0x12#8
  | .rsym _ _ => 0x20#8
  | .rend _ => 0x21#8

/-- The operand of each command, its fields put where the format table has them (R51). -/
def Instr.operand : Instr → BitVec 64
  | .nop mbz => mbz
  | .srst mbz => mbz
  | .rdcsr mbzHi csr valMbz => mbzHi ++ csr ++ valMbz
  | .wrcsr mbzHi csr val => mbzHi ++ csr ++ val
  | .qtile arg => arg
  | .lookup mbz imm => mbz ++ imm
  | .lookupb mbz imm => mbz ++ imm
  | .rsym mbz imm => mbz ++ imm
  | .rend mbz => mbz

/-- The command word of a command: the opcode above the operand (R51). -/
def encode (i : Instr) : CmdWord := i.opcode ++ i.operand

/-- The nine opcodes of R54, in the table's order. -/
def definedOpcodes : List (BitVec 8) :=
  [0x00#8, 0x01#8, 0x02#8, 0x03#8, 0x10#8, 0x11#8, 0x12#8, 0x20#8, 0x21#8]

/-- The command word whose bits are `w`, numbered as spec/opcode_table.json numbers them: bit 0 of `w` is
`cw[0]`, and the bits from `nbits` on are 0. -/
def tableWord (nbits w : Nat) : CmdWord := BitVec.ofNat 72 (w % 2 ^ nbits)

/-- The command the decoder reads from the table word `w` of `nbits` bits; a word with more than 72 bits set is
no command word. -/
def decodeTableWord (nbits w : Nat) : Option Instr :=
  if w % 2 ^ nbits < 2 ^ 72 then (decode (tableWord nbits w)).toOption else none

end Sys2Proof
end

