-- ==== Sys2Proof/Config.lean ====
section
/-!
DEFINITION. The parameters of the block (spec/00_scope.md R3 to R6) and the free values of the model.
The parameters are fixed before reset is released and never change while the block runs (R3): the record is a
field of `State` that no step writes, so a statement about every state is a statement about every configuration
(log entry 1).
-/

namespace Sys2Proof

/-- `TILE`, the side of the square tile in pixels: 4 or 8 and nothing else (R3, spec/90_conflicts.md C4). -/
inductive TileSide where
  | four
  | eight
deriving DecidableEq, Repr

/-- The number `TILE` itself. -/
def TileSide.pixels : TileSide → Nat
  | .four => 4
  | .eight => 8

/-- The configuration record `Cfg` of R3: `TILE`, and the Codebook `CB` as the list of its codewords in index
order. `K` is the length of that list. -/
structure Cfg where
  tile : TileSide
  cb : List Data
deriving DecidableEq, Repr

/-- `TILE` as a number. -/
def Cfg.side (c : Cfg) : Nat := c.tile.pixels

/-- `L = TILE * TILE`, the tile length in bits (R3). -/
def Cfg.L (c : Cfg) : Nat := c.side * c.side

/-- `K`, the number of codewords (R3). -/
def Cfg.K (c : Cfg) : Nat := c.cb.length

/-- `B = L / 8`, the number of bytes of a codeword in the packed codebook (R34). -/
def Cfg.B (c : Cfg) : Nat := c.L / 8

/-- `v` is an `L`-bit value: bits 63:L are zero (R32). -/
def Cfg.fits (c : Cfg) (v : Data) : Bool := decide (v.toNat < 2 ^ c.L)

/-- The legal values of the parameters (R3): `1 <= K <= 2048`, and every codeword has `L` bits. Another
configuration is given no meaning (spec/93_implementation_defined.md V14: refuse). -/
def Cfg.legal (c : Cfg) : Bool :=
  decide (1 ≤ c.K) && decide (c.K ≤ 2048) && c.cb.all c.fits

/-! Free values. R24 leaves the four working registers of the scan unspecified after a reset, and
spec/93_implementation_defined.md V7 says `any value`. Each is an opaque function of the number of resets the
model has run (`State.draws`): nothing can be proved about which value it is (log entry 3). -/

/-- What `tile_reg` holds after the n-th reset: unspecified (R22, R24). -/
opaque Config.freeTileReg : Nat → Data
/-- What `scan_idx` holds after the n-th reset: unspecified (R22, R24). -/
opaque Config.freeScanIdx : Nat → BitVec 12
/-- What `best_idx` holds after the n-th reset: unspecified (R22, R24). -/
opaque Config.freeBestIdx : Nat → BitVec 11
/-- What `best_dist` holds after the n-th reset: unspecified (R22, R24). -/
opaque Config.freeBestDist : Nat → BitVec 7

end Sys2Proof
end

