-- ==== Sys2Proof/Machine/State.lean ====
section
/-!
DEFINITION. The state of the block (spec/10_state.md R10, R22), the words of its two output ports, the events its
surroundings send it, and the state after reset (R24).
-/

namespace Sys2Proof.Machine

/-- `rle_mode`: the two field-width settings of the encoder (R15, R85). 0 = DICT, 1 = PIXEL. -/
inductive RleMode where
  | dict
  | pixel
deriving DecidableEq, Repr

/-- A word of the encoded stream with its width tag: the pair `(width, value)` of R21, `width` 16 or 8 and
`value < 2^width`. -/
inductive EncWord where
  | w16 (v : BitVec 16)
  | w8 (v : BitVec 8)
deriving DecidableEq, Repr

/-- The six error causes that have a sticky bit (R121). -/
inductive ErrorKind where
  | illegalOp
  | badOperand
  | csrAccess
  | indexRange
  | symbolRange
  | cfgBusy
deriving DecidableEq, Repr

/-- The response codes (R121). Codes 7 to 14 are reserved and never produced
(spec/93_implementation_defined.md V5). -/
inductive Code where
  | ok
  | error (e : ErrorKind)
  | locked
deriving DecidableEq, Repr

/-- A response: `rw[67:64]` is the code, `rw[63:0]` the data (R57). -/
structure Rsp where
  code : Code
  data : Data
deriving DecidableEq, Repr

/-- The open run of the encoder: `run_active`, `run_sym`, `run_cnt` (R10). -/
structure Run where
  active : Bool
  sym : BitVec 11
  cnt : BitVec 7
deriving DecidableEq, Repr

/-- No run is open: `run_sym` and `run_cnt` are 0 (R23 item 1, R24). -/
def Run.idle : Run := ⟨false, 0#11, 0#7⟩

/-- The last quantization result: `qres_valid`, `qres_idx`, `qres_dist` (R10). -/
structure QRes where
  valid : Bool
  idx : BitVec 11
  dist : BitVec 7
deriving DecidableEq, Repr

/-- No result yet: both fields are 0 (R23 item 4, R24). -/
def QRes.none : QRes := ⟨false, 0#11, 0#7⟩

/-- The four working registers of the codebook scan: `tile_reg`, `scan_idx`, `best_idx`, `best_dist` (R22). -/
structure ScanRegs where
  tileReg : Data
  scanIdx : BitVec 12
  bestIdx : BitVec 11
  bestDist : BitVec 7
deriving DecidableEq, Repr

/-- What the surroundings of the block do next (spec/00_scope.md R9, spec/70_reset_and_hazards.md R142, R152,
spec/20_memory.md R42, R49): the host presents commands, the reset input may be asserted, the consumers of the
output ports may delay. These are inputs, not state of the block (log entry 2). -/
inductive Event where
  /-- The host, having taken the response to the previous command, presents `cw` on the `cmd` port. -/
  | command (cw : CmdWord)
  /-- `rst` is asserted between two commands (R140). -/
  | hardReset
  /-- `rst` is asserted while `cw` executes, after `sent` of the words it emits have reached `enc` (R142): all of
  them where it emits no more than `sent`. -/
  | hardResetDuring (cw : CmdWord) (sent : Nat)
  /-- The host or a consumer takes its time before it accepts a word or presents the next command (R42). -/
  | delay
  /-- A consumer of `enc` or `rsp` never accepts the word that waits at its port (R42, V12). -/
  | consumerStops
  /-- The host presents `cw` before it has taken the response to the previous command (R152, V10). -/
  | overlappingCommand (cw : CmdWord)
  /-- The codebook image is changed while the block is out of reset (R49, V11). -/
  | codebookChange (cb : List Data)
deriving DecidableEq, Repr

/-- Why the machine stops. The block itself has no stop: an error is a response and a sticky bit (R120). -/
inductive Fault where
  /-- A consumer that never accepts a word stops the block for ever (R42; V12: stuck). Raised by `handle` on
  `Event.consumerStops`. Safe: the spec says nothing happens after it. -/
  | consumerStopped
deriving DecidableEq, Repr

/-- Where the spec gives no meaning and the model gives none (V8, V10, V11, V14: refuse). All are safe. -/
inductive Refusal where
  /-- An instruction without a meaning. No arm of `exec` answers it. -/
  | notModelled (mnemonic : String)
  /-- `TILE`, `K` or a codeword is outside R3's legal values (V14). Raised by `advance`. -/
  | illegalConfig
  /-- No reset has been asserted yet, so no rule applies (R143 item 2, V8). Raised by `advance`. -/
  | beforeFirstReset
  /-- A second command was presented before the previous response was taken (R152, V10). Raised by `handle`. -/
  | secondOutstanding
  /-- The codebook image was changed after reset was released (R49, V11). Raised by `handle`. -/
  | codebookChanged
deriving DecidableEq, Repr

/-- The whole state: the record of R10, the working registers of R22, the two port histories, and what the model
needs beside them. -/
structure State where
  /-- The parameters of R3. Not state of the block: no step writes them (log entry 1). -/
  cfg : Cfg
  /-- `rle_mode` (R10, `CTRL[0]`). -/
  rleMode : RleMode
  /-- `chain` (R10, `CTRL[1]`). -/
  chain : Bool
  /-- `err` (R10, `ERR[5:0]`): bit `c-1` is the sticky bit of the error with code `c` (R17). -/
  err : BitVec 6
  /-- `run_active`, `run_sym`, `run_cnt` (R10, `RUN`). -/
  run : Run
  /-- `qres_valid`, `qres_idx`, `qres_dist` (R10, `QRES`). -/
  qres : QRes
  /-- `tile_reg`, `scan_idx`, `best_idx`, `best_dist` (R22). -/
  scan : ScanRegs
  /-- `enc`: every word put on the encoded-stream output, oldest first (R21). -/
  enc : List EncWord
  /-- Every response given on the `rsp` port, oldest first (R57; the list of responses of R144). -/
  rsps : List Rsp
  /-- What the surroundings do next, soonest first (R9). -/
  inputs : List Event
  /-- A reset has been asserted at least once (R143 item 2). -/
  resetSeen : Bool
  /-- How many free draws have been taken: the model's own counter (log entry 3). -/
  draws : Nat
deriving DecidableEq, Repr

/-- The configuration of `State.reset`: config A of spec/95_test_vectors.md section 2. The spec fixes no one
configuration (DESIGN CHOICE, log entry 4). -/
def configA : Cfg := ⟨.four, [0x0000, 0xFFFF, 0x0F0F, 0x0000]⟩

/-- The block right after its first reset under configuration `c`: every field at R24's value, nothing emitted
and nothing answered. The working registers, which R24 leaves unspecified, are 0 (DESIGN CHOICE, log entry 5). -/
def State.resetWith (c : Cfg) : State where
  cfg := c
  rleMode := .dict
  chain := false
  err := 0#6
  run := Run.idle
  qres := QRes.none
  scan := ⟨0#64, 0#12, 0#11, 0#7⟩
  enc := []
  rsps := []
  inputs := []
  resetSeen := true
  draws := 0

/-- The machine right after reset (R24, R140). -/
def State.reset : State := State.resetWith configA

end Sys2Proof.Machine
end

