-- ==== Sys2Proof/Machine/Operands.lean ====
section
/-!
DEFINITION. What commands compute with: the Hamming distance (spec/40_tile_quantizer.md R71), the field widths and
the packed word of the encoder (spec/41_run_length_encoder.md R85 to R87), and the two views of the codebook
(spec/20_memory.md R31 to R36).
-/

namespace Sys2Proof.Machine

/-! ### Hamming distance -/

/-- The number of 1 bits among bits `n-1:0` of `v`. -/
def onesBelow (v : Data) : Nat → Nat
  | 0 => 0
  | n + 1 => onesBelow v n + (v.getLsbD n).toNat

/-- `popcount(v)` (spec/00_scope.md section 7). -/
def popcount (v : Data) : Nat := onesBelow v 64

/-- `HD(a, b) = popcount(a ^ b)` (R71), the plain sum over the lanes (R72). -/
def hd (a b : Data) : Nat := popcount (a ^^^ b)

/-! ### The encoder's widths and words -/

/-- `SYM_W` (R85). -/
def RleMode.symW : RleMode → Nat
  | .dict => 11
  | .pixel => 1

/-- `CNT_W` (R85). -/
def RleMode.cntW : RleMode → Nat
  | .dict => 5
  | .pixel => 7

/-- `WORD_W = SYM_W + CNT_W` (R85). -/
def RleMode.wordW (m : RleMode) : Nat := m.symW + m.cntW

/-- `MAXCNT = 2^CNT_W - 1` (R85). -/
def RleMode.maxCnt (m : RleMode) : Nat := 2 ^ m.cntW - 1

/-- A symbol fits the mode: `sym < 2^SYM_W` (R85). -/
def RleMode.symFits (m : RleMode) (sym : Nat) : Bool := decide (sym < 2 ^ m.symW)

/-- A `WORD_W`-bit word of the mode (R40, R85): 16 bits in DICT mode, 8 bits in PIXEL mode. -/
def RleMode.word (m : RleMode) (v : Nat) : EncWord :=
  match m with
  | .dict => .w16 (BitVec.ofNat 16 v)
  | .pixel => .w8 (BitVec.ofNat 8 v)

/-- `Pack(sym, cnt) = (sym << CNT_W) | cnt` as a word of the mode (R86). -/
def pack (m : RleMode) (sym : BitVec 11) (cnt : BitVec 7) : EncWord :=
  m.word (sym.toNat <<< m.cntW ||| cnt.toNat)

/-- The sentinel: the word of value 0 in the mode's width (R87). -/
def sentinel (m : RleMode) : EncWord := m.word 0

/-- `width` of an entry of `enc` (R21). -/
def EncWord.width : EncWord → Nat
  | .w16 _ => 16
  | .w8 _ => 8

/-- `value` of an entry of `enc` (R21). -/
def EncWord.value : EncWord → Nat
  | .w16 v => v.toNat
  | .w8 v => v.toNat

/-- The count field of an entry: `word[CNT_W-1:0]` of the mode that has this word width (R86). -/
def EncWord.count : EncWord → Nat
  | .w16 v => v.toNat % 2 ^ 5
  | .w8 v => v.toNat % 2 ^ 7

/-- What the `enc` port carries for a word: `(enc_data, enc_w8)` (R41). -/
def EncWord.port : EncWord → BitVec 16 × Bool
  | .w16 v => (v, false)
  | .w8 v => (v.setWidth 16, true)

/-! ### The codebook -/

/-- `CbRead(i)` for `i < K`; for `i >= K` it is not defined and there is no value (R33). -/
def cbRead (c : Cfg) (i : Nat) : Option Data := c.cb[i]?

/-- `byte(i, j) = v[L-1-8j : L-8-8j]` of the codeword `v` (R34). -/
def codewordByte (c : Cfg) (v : Data) (j : Nat) : Byte := (v >>> (c.L - 8 - 8 * j)).setWidth 8

/-- `CbReadByte(a) = byte(a div B, a mod B)` for `a < K * B`; beyond it there is no value (R35). -/
def cbReadByte (c : Cfg) (a : Nat) : Option Byte :=
  (cbRead c (a / c.B)).map fun v => codewordByte c v (a % c.B)

/-- Element `e[k]` of the flattened vector is bit `L-1-k` of the value (R31). -/
def element (c : Cfg) (v : Data) (k : Nat) : Bool := v.getLsbD (c.L - 1 - k)

/-- The pixel in row `r` and column `col` of a tile is element `e[r * TILE + col]` (R31). -/
def pixel (c : Cfg) (v : Data) (r col : Nat) : Bool := element c v (r * c.side + col)

end Sys2Proof.Machine
end

