-- ==== Sys2Proof/Machine/Flags.lean ====
section
/-!
DEFINITION. The flags, the sticky error bits and the six control and status registers (spec/10_state.md R13 to
R20; spec/60_exceptions.md R121), and the layout of a response (spec/30_encoding.md R57).
A CSR is not separate storage: its value is composed from the state fields and the parameters (R14).
-/

namespace Sys2Proof.Machine

/-- The number of an error cause: its 4-bit response code (R121). -/
def ErrorKind.number : ErrorKind → Nat
  | .illegalOp => 1
  | .badOperand => 2
  | .csrAccess => 3
  | .indexRange => 4
  | .symbolRange => 5
  | .cfgBusy => 6

/-- The sticky bit of an error: bit `code - 1` of `err` (R17, R121). -/
def ErrorKind.bit (e : ErrorKind) : BitVec 6 := BitVec.ofNat 6 (2 ^ (e.number - 1))

/-- The 4-bit response code (R121). -/
def Code.number : Code → BitVec 4
  | .ok => 0
  | .error e => BitVec.ofNat 4 e.number
  | .locked => 15

/-- The response word `{code, data}` (R57). -/
def Rsp.word (r : Rsp) : RspWord := r.code.number ++ r.data

/-- `locked` is the derived value `err != 0` (R13). -/
def State.locked (s : State) : Bool := s.err != 0#6

/-- The number of a mode: the value of `CTRL.RLE_MODE` (R15). -/
def RleMode.bit : RleMode → Bool
  | .dict => false
  | .pixel => true

/-- The mode a value of `CTRL.RLE_MODE` selects (R15). -/
def RleMode.ofBit : Bool → RleMode
  | false => .dict
  | true => .pixel

/-- `CTRL` (R15): bit 0 `RLE_MODE`, bit 1 `CHAIN`. -/
def ctrl (s : State) : CsrWord := 0#30 ++ BitVec.ofBool s.chain ++ BitVec.ofBool s.rleMode.bit

/-- `STATUS` (R16): bit 0 `RUN_ACTIVE`, bit 1 `QRES_VALID`, bit 2 `LOCKED`. -/
def status (s : State) : CsrWord :=
  0#29 ++ BitVec.ofBool s.locked ++ BitVec.ofBool s.qres.valid ++ BitVec.ofBool s.run.active

/-- `ERR` (R17): bits 5:0. -/
def errCsr (s : State) : CsrWord := 0#26 ++ s.err

/-- `RUN` (R18): `run_sym` in bits 10:0, `run_cnt` in bits 22:16. -/
def runCsr (s : State) : CsrWord := 0#9 ++ s.run.cnt ++ 0#5 ++ s.run.sym

/-- `QRES` (R19, R76): `qres_idx` in bits 10:0, `qres_dist` in bits 22:16. -/
def qresCsr (s : State) : CsrWord := 0#9 ++ s.qres.dist ++ 0#5 ++ s.qres.idx

/-- `PARAM` (R20): `K` in bits 11:0, `TILE` in bits 19:16. -/
def param (c : Cfg) : CsrWord := 0#12 ++ BitVec.ofNat 4 c.side ++ 0#4 ++ BitVec.ofNat 12 c.K

/-- `csr[n]` (R14): numbers 0 to 5; numbers 6 to 255 are undefined. -/
def readCsr (s : State) (n : BitVec 8) : Option CsrWord :=
  match n.toNat with
  | 0 => some (ctrl s)
  | 1 => some (status s)
  | 2 => some (errCsr s)
  | 3 => some (runCsr s)
  | 4 => some (qresCsr s)
  | 5 => some (param s.cfg)
  | _ => none

/-- The data of a `QTILE` response: `{zext_41(0), d[6:0], zext_16(i)}` (R75, R76). -/
def resultData (idx : BitVec 11) (dist : BitVec 7) : Data := 0#41 ++ dist ++ 0#5 ++ idx

end Sys2Proof.Machine
end

