-- ==== Sys2Proof/WellFormed.lean ====
section
/-!
DEFINITION. Well-formed commands: those whose "must be zero" bits are all 0 (spec/30_encoding.md R51, R52).
These are the words the assembler of R59 can write. For `QTILE` the bits depend on `L`, so the check takes the
configuration.
-/

namespace Sys2Proof

/-- Every "must be zero" bit of the command's format is 0 under configuration `c` (R51). -/
def Instr.wellFormed (c : Cfg) : Instr → Bool
  | .nop mbz => mbz == 0#64
  | .srst mbz => mbz == 0#64
  | .rdcsr mbzHi _ valMbz => mbzHi == 0#24 && valMbz == 0#32
  | .wrcsr mbzHi _ _ => mbzHi == 0#24
  | .qtile arg => c.fits arg
  | .lookup mbz _ => mbz == 0#48
  | .lookupb mbz _ => mbz == 0#48
  | .rsym mbz _ => mbz == 0#48
  | .rend mbz => mbz == 0#64

end Sys2Proof
end

