-- ==== Sys2Proof/Machine/Ops.lean ====
section
/-!
DEFINITION. The shared operations: respond, the error action and the lock (spec/60_exceptions.md R122, R123), the
part of the dispatch every command shares (spec/30_encoding.md R53), reset (spec/10_state.md R24), `emit`
(spec/20_memory.md R40), the encoder's two procedures (spec/41_run_length_encoder.md R88, R89) and the quantizer's
scan (spec/40_tile_quantizer.md R73).
-/

namespace Sys2Proof.Machine

/-! ### Responses and errors -/

/-- `respond(code, data)`: finish the command with its one response (R57). -/
def respond (code : Code) (data : Data) (s : State) : State :=
  { s with rsps := s.rsps ++ [⟨code, data⟩] }

/-- `raise E`: set the error's sticky bit, make no other change, answer its code with data 0 (R122). -/
def raise (e : ErrorKind) (s : State) : State :=
  respond (.error e) 0#64 { s with err := s.err ||| e.bit }

/-- `respond(LOCKED, 0)`: no state change at all, `err` unchanged (R53 step 1, R123). -/
def answerLocked (s : State) : State := respond .locked 0#64 s

/-- Step 3 of the dispatch and then the command's own rule (R53): the "must be zero" bits are checked first. -/
def checked (mbzOk : Bool) (body : State → State) (s : State) : State :=
  if mbzOk then body s else raise .badOperand s

/-- Steps 1, 3 and 4 of the dispatch for a command that the lock stops (R53, R123). -/
def guarded (mbzOk : Bool) (body : State → State) (s : State) : State :=
  if s.locked then answerLocked s else checked mbzOk body s

/-- Steps 1 and 2 of the dispatch for an undefined opcode (R53, R55). -/
def undefinedOp (s : State) : State :=
  if s.locked then answerLocked s else raise .illegalOp s

/-! ### Reset -/

/-- What the working registers hold after a reset: unspecified (R22, R24); free values, `tile_reg` cut to its
`L` bits. -/
def freeScan (c : Cfg) (n : Nat) : ScanRegs :=
  ⟨((Config.freeTileReg n).setWidth c.L).setWidth 64, Config.freeScanIdx n, Config.freeBestIdx n,
    Config.freeBestDist n⟩

/-- Every state field takes its reset value; the parameters and the history `enc` are untouched (R24). -/
def resetFields (s : State) : State :=
  { s with
    rleMode := .dict
    chain := false
    err := 0#6
    run := Run.idle
    qres := QRes.none
    scan := freeScan s.cfg s.draws
    draws := s.draws + 1 }

/-- Hard reset (R140): the reset values, and no response. From now on the rules apply (R143 item 2). -/
def hardReset (s : State) : State := { resetFields s with resetSeen := true }

/-! ### The encoder -/

/-- `emit`, for each of `ws` in order: append to `enc` (R40). -/
def emit (ws : List EncWord) (s : State) : State := { s with enc := s.enc ++ ws }

/-- `RlePush(sym)` on the run registers: the run after it and the words it emits, its four cases in the order of
R88. -/
def runPush (m : RleMode) (r : Run) (sym : BitVec 11) : Run × List EncWord :=
  if r.active = false then (⟨true, sym, 1#7⟩, [])
  else if sym = r.sym ∧ r.cnt.toNat < m.maxCnt then (⟨true, r.sym, r.cnt + 1#7⟩, [])
  else if sym = r.sym ∧ r.cnt.toNat = m.maxCnt then
    (⟨true, r.sym, 1#7⟩, [pack m r.sym (BitVec.ofNat 7 m.maxCnt)])
  else (⟨true, sym, 1#7⟩, [pack m r.sym r.cnt])

/-- The words `RleEnd()` emits: the open run if there is one, then the sentinel (R89). -/
def runEnd (m : RleMode) (r : Run) : List EncWord :=
  if r.active then [pack m r.sym r.cnt, sentinel m] else [sentinel m]

/-- `RlePush(sym)` (R88). -/
def rlePush (sym : BitVec 11) (s : State) : State :=
  emit (runPush s.rleMode s.run sym).2 { s with run := (runPush s.rleMode s.run sym).1 }

/-- `RleEnd()` (R89). -/
def rleEnd (s : State) : State :=
  emit (runEnd s.rleMode s.run) { s with run := Run.idle }

/-! ### The quantizer -/

/-- The working registers when the scan of tile `t` begins (R73). -/
def scanStart (t : Data) : ScanRegs := ⟨t, 0#12, 0#11, 127#7⟩

/-- One comparison of the scan with the codeword at `scan_idx`: strictly less wins (R73). -/
def scanCompare (r : ScanRegs) (codeword : Data) : ScanRegs :=
  if hd r.tileReg codeword < r.bestDist.toNat then
    { r with
      bestIdx := r.scanIdx.setWidth 11
      bestDist := BitVec.ofNat 7 (hd r.tileReg codeword)
      scanIdx := r.scanIdx + 1#12 }
  else { r with scanIdx := r.scanIdx + 1#12 }

/-- The loop `while scan_idx < K` of R73. There is a codeword at `scan_idx` exactly while `scan_idx < K`; the
first argument bounds the number of passes. -/
def scanLoop (c : Cfg) : Nat → ScanRegs → ScanRegs
  | 0, r => r
  | n + 1, r =>
    match cbRead c r.scanIdx.toNat with
    | some codeword => scanLoop c n (scanCompare r codeword)
    | none => r

/-- The working registers at the end of the scan of tile `t`: exactly `K` comparisons (R73). -/
def scanTile (c : Cfg) (t : Data) : ScanRegs := scanLoop c c.K (scanStart t)

end Sys2Proof.Machine
end

