-- ==== Sys2Proof/Machine/Codebook.lean ====
section
/-!
DEFINITION. The codebook's commands LOOKUP and LOOKUPB (spec/42_codebook_lut.md R106, R107).
There is a codeword at `imm` exactly when `imm < K`, and a byte exactly when `imm < K * B` (spec/20_memory.md R33,
R35), so "no value" is the range check of each rule.
-/

namespace Sys2Proof.Machine

/-- The own rule of `LOOKUP` (R106): `imm >= K` raises `INDEX_RANGE`. -/
def lookupBody (imm : BitVec 16) (s : State) : State :=
  match cbRead s.cfg imm.toNat with
  | some v => respond .ok v s
  | none => raise .indexRange s

/-- `LOOKUP` (R106). -/
def execLookup (mbz : BitVec 48) (imm : BitVec 16) (s : State) : Host.Outcome State Fault Refusal :=
  .next (guarded (mbz == 0#48) (lookupBody imm) s)

/-- The own rule of `LOOKUPB` (R107): `imm >= K * B` raises `INDEX_RANGE`. -/
def lookupbBody (imm : BitVec 16) (s : State) : State :=
  match cbReadByte s.cfg imm.toNat with
  | some b => respond .ok (b.setWidth 64) s
  | none => raise .indexRange s

/-- `LOOKUPB` (R107). -/
def execLookupb (mbz : BitVec 48) (imm : BitVec 16) (s : State) : Host.Outcome State Fault Refusal :=
  .next (guarded (mbz == 0#48) (lookupbBody imm) s)

end Sys2Proof.Machine
end

