-- ==== Sys2Proof/Machine/Quantizer.lean ====
section
/-!
DEFINITION. The quantizer's command QTILE (spec/40_tile_quantizer.md R75, R81).
-/

namespace Sys2Proof.Machine

/-- The scan of tile `t` and the result registers after it (R73, R75; R22: `best_idx` and `best_dist` are copied
into `qres_idx` and `qres_dist`). -/
def quantizeInto (t : Data) (s : State) : State :=
  { s with
    scan := scanTile s.cfg t
    qres := ⟨true, (scanTile s.cfg t).bestIdx, (scanTile s.cfg t).bestDist⟩ }

/-- With `chain = 1` the index just found is pushed into the encoder (R75, R81). -/
def chainPush (s : State) : State := if s.chain then rlePush s.qres.idx s else s

/-- The own rule of `QTILE` (R75). -/
def qtileBody (t : Data) (s : State) : State :=
  respond .ok (resultData (scanTile s.cfg t).bestIdx (scanTile s.cfg t).bestDist)
    (chainPush (quantizeInto t s))

/-- `QTILE` (R75): for `L = 16`, `arg[63:16]` must be zero. -/
def execQtile (arg : BitVec 64) (s : State) : Host.Outcome State Fault Refusal :=
  .next (guarded (s.cfg.fits arg) (qtileBody arg) s)

end Sys2Proof.Machine
end

