-- ==== Sys2Proof/Machine/RunLength.lean ====
section
/-!
DEFINITION. The encoder's commands RSYM and REND (spec/41_run_length_encoder.md R90, R91).
-/

namespace Sys2Proof.Machine

/-- The own rule of `RSYM` (R90): a symbol of more than `SYM_W` bits raises `SYMBOL_RANGE`. -/
def rsymBody (imm : BitVec 16) (s : State) : State :=
  if s.rleMode.symFits imm.toNat then respond .ok 0#64 (rlePush (imm.setWidth 11) s)
  else raise .symbolRange s

/-- `RSYM` (R90). -/
def execRsym (mbz : BitVec 48) (imm : BitVec 16) (s : State) : Host.Outcome State Fault Refusal :=
  .next (guarded (mbz == 0#48) (rsymBody imm) s)

/-- `REND` (R91). -/
def execRend (mbz : BitVec 64) (s : State) : Host.Outcome State Fault Refusal :=
  .next (guarded (mbz == 0#64) (fun s => respond .ok 0#64 (rleEnd s)) s)

end Sys2Proof.Machine
end

