-- ==== Sys2Proof/Machine/System.lean ====
section
/-!
DEFINITION. The shell's commands NOP, SRST, RDCSR and WRCSR (spec/43_system_commands.md R112 to R115).
-/

namespace Sys2Proof.Machine

/-- `NOP` (R112). -/
def execNop (mbz : BitVec 64) (s : State) : Host.Outcome State Fault Refusal :=
  .next (guarded (mbz == 0#64) (respond .ok 0#64) s)

/-- `SRST` (R113): executes while locked; an operand bit that is not zero is `BAD_OPERAND` and nothing is reset. -/
def execSrst (mbz : BitVec 64) (s : State) : Host.Outcome State Fault Refusal :=
  .next (checked (mbz == 0#64) (fun s => respond .ok 0#64 (resetFields s)) s)

/-- The own rule of `RDCSR` (R114): `csr > 5` raises `CSR_ACCESS`. -/
def rdcsrBody (csr : BitVec 8) (s : State) : State :=
  match readCsr s csr with
  | some v => respond .ok (v.setWidth 64) s
  | none => raise .csrAccess s

/-- `RDCSR` (R114): exempt from the lock. -/
def execRdcsr (mbzHi : BitVec 24) (csr : BitVec 8) (valMbz : BitVec 32) (s : State) :
    Host.Outcome State Fault Refusal :=
  .next (checked (mbzHi == 0#24 && valMbz == 0#32) (rdcsrBody csr) s)

/-- The legal values of `CTRL` (R15, R115 check 2): reserved bits zero, and not `CHAIN` with PIXEL mode. -/
def ctrlLegal (val : BitVec 32) : Bool := val.extractLsb' 2 30 == 0#30 && val.extractLsb' 0 2 != 3#2

/-- The own rule of `WRCSR` (R115), its checks in the order of the rule. -/
def wrcsrBody (csr : BitVec 8) (val : BitVec 32) (s : State) : State :=
  if csr ≠ 0#8 then raise .csrAccess s
  else if ctrlLegal val = false then raise .badOperand s
  else if s.run.active then raise .cfgBusy s
  else respond .ok 0#64 { s with rleMode := RleMode.ofBit (val.getLsbD 0), chain := val.getLsbD 1 }

/-- `WRCSR` (R115). -/
def execWrcsr (mbzHi : BitVec 24) (csr : BitVec 8) (val : BitVec 32) (s : State) :
    Host.Outcome State Fault Refusal :=
  .next (guarded (mbzHi == 0#24) (wrcsrBody csr val) s)

end Sys2Proof.Machine
end

