-- ==== Sys2Proof/Machine/Dispatch.lean ====
section
/-!
DEFINITION. The meaning of every command of spec/opcode_table.json: one arm per constructor of `Instr`.
-/

namespace Sys2Proof.Machine

def exec (i : Instr) (s : State) : Host.Outcome State Fault Refusal :=
  match i with
  -- shell
  | .nop mbz => Sys2Proof.Machine.execNop mbz s
  | .srst mbz => Sys2Proof.Machine.execSrst mbz s
  | .rdcsr mbzHi csr valMbz => Sys2Proof.Machine.execRdcsr mbzHi csr valMbz s
  | .wrcsr mbzHi csr val => Sys2Proof.Machine.execWrcsr mbzHi csr val s
  -- quantizer and codebook
  | .qtile arg => Sys2Proof.Machine.execQtile arg s
  | .lookup mbz imm => Sys2Proof.Machine.execLookup mbz imm s
  | .lookupb mbz imm => Sys2Proof.Machine.execLookupb mbz imm s
  -- run-length encoder
  | .rsym mbz imm => Sys2Proof.Machine.execRsym mbz imm s
  | .rend mbz => Sys2Proof.Machine.execRend mbz s

end Sys2Proof.Machine
end

