-- ==== Sys2Proof/Machine/Command.lean ====
section
/-!
DEFINITION. One command word through the whole dispatch (spec/30_encoding.md R53), and one event of the
surroundings (spec/00_scope.md R9, spec/70_reset_and_hazards.md R140 to R143).
-/

namespace Sys2Proof.Machine

/-- `Exec(cfg, S, cw)` (R8, R53): an undefined opcode is answered by the dispatch itself, a defined one by its
command. -/
def runCommand (cw : CmdWord) (s : State) : Host.Outcome State Fault Refusal :=
  match decode cw with
  | .ok i => exec i s
  | .error _ => .next (undefinedOp s)

/-- `cw` is answered `OK` in state `s`: it does everything its rule says (R57). -/
def answersOk (cw : CmdWord) (s : State) : Bool :=
  match runCommand cw s with
  | .next t => t.rsps.getLast?.map Rsp.code == some .ok
  | .fault _ => false
  | .refused _ => false

/-- `cw` performs `RlePush` in state `s`: an `RSYM`, or a `QTILE` with `chain = 1`, that is answered `OK` (R75, R90;
spec/70_reset_and_hazards.md R149). -/
def pushesSymbol (cw : CmdWord) (s : State) : Bool :=
  match decode cw with
  | .ok (.rsym _ _) => answersOk cw s
  | .ok (.qtile _) => s.chain && answersOk cw s
  | .ok (.nop _) => false
  | .ok (.srst _) => false
  | .ok (.rdcsr _ _ _) => false
  | .ok (.wrcsr _ _ _) => false
  | .ok (.lookup _ _) => false
  | .ok (.lookupb _ _) => false
  | .ok (.rend _) => false
  | .error _ => false

/-- A finite list of command words executed one after another (R144). -/
def runCommands : List CmdWord → State → Host.Outcome State Fault Refusal
  | [], s => .next s
  | cw :: rest, s =>
    match runCommand cw s with
    | .next t => runCommands rest t
    | .fault r => .fault r
    | .refused r => .refused r

/-- Something was pushed while the list was executed (R144; log entry 22). -/
def anyPush : List CmdWord → State → Bool
  | [], _ => false
  | cw :: rest, s =>
    pushesSymbol cw s ||
      match runCommand cw s with
      | .next t => anyPush rest t
      | .fault _ => false
      | .refused _ => false

/-- The words `cw` emits when it runs to its end in state `s` (R142: the command's emission list). -/
def emission (cw : CmdWord) (s : State) : List EncWord :=
  match runCommand cw s with
  | .next t => t.enc.drop s.enc.length
  | .fault _ => []
  | .refused _ => []

/-- Hard reset while `cw` executes (R142): no response, the reset state whatever the command had done, and the
first `sent` of the words it would have emitted. -/
def hardResetDuring (cw : CmdWord) (sent : Nat) (s : State) : State :=
  emit ((emission cw s).take sent) (hardReset s)

/-- No rule applies before the first reset (R143 item 2, V8). -/
def afterFirstReset (s : State) (o : Host.Outcome State Fault Refusal) : Host.Outcome State Fault Refusal :=
  if s.resetSeen then o else .refused .beforeFirstReset

/-- What one event does to a block that has a legal configuration. -/
def handle (e : Event) (s : State) : Host.Outcome State Fault Refusal :=
  match e with
  | .command cw => afterFirstReset s (runCommand cw s)
  | .hardReset => .next (hardReset s)
  | .hardResetDuring cw sent => afterFirstReset s (.next (hardResetDuring cw sent s))
  | .delay => afterFirstReset s (.next s)
  | .consumerStops => afterFirstReset s (.fault .consumerStopped)
  | .overlappingCommand _ => afterFirstReset s (.refused .secondOutstanding)
  | .codebookChange _ => afterFirstReset s (.refused .codebookChanged)

/-- One step: the next event of the surroundings. While there is none the block waits and nothing in it happens
(R127). An illegal configuration is given no meaning (R3, V14). -/
def advance (s : State) : Host.Outcome State Fault Refusal :=
  if s.cfg.legal = false then .refused .illegalConfig
  else
    match s.inputs with
    | [] => afterFirstReset s (.next s)
    | e :: rest => handle e { s with inputs := rest }

/-- The host presents `cw` next (R50). -/
def present (cw : CmdWord) (s : State) : State := { s with inputs := .command cw :: s.inputs }

end Sys2Proof.Machine
end

