-- ==== Sys2Proof/Machine/Step.lean ====
section
/-!
DEFINITION. The step of the machine. The block fetches nothing (spec/10_state.md R12): the host presents command
words on the `cmd` port one at a time, and a step takes the next event of the surroundings (log entry 2).
-/

namespace Sys2Proof.Machine

/-- One step. -/
def step (s : State) : Host.Outcome State Fault Refusal := Sys2Proof.Machine.advance s

/-- `s` with the table word `w` presented on the `cmd` port as the very next command. -/
def State.withFetchWord (s : State) (nbits w : Nat) : State :=
  Sys2Proof.Machine.present (tableWord nbits w) s

end Sys2Proof.Machine
end

