-- ==== Sys2Proof/Machine/Assembler.lean ====
section
/-!
DEFINITION. The assembler syntax and the pseudo-commands (spec/30_encoding.md R59, R60). It has no effect on the
block: it only names command words.
-/

namespace Sys2Proof.Machine

/-- A line of assembly with its operands as numbers (R59), the pseudo-commands of R60 among them. -/
inductive AsmLine where
  | nop
  | srst
  | rdcsr (csr : Nat)
  | wrcsr (csr val : Nat)
  | qtile (tile : Nat)
  | lookup (index : Nat)
  | lookupb (addr : Nat)
  | rsym (sym : Nat)
  | rend
  | setmodeDict
  | setmodePixel
  | setmodeDictChain
  | rseq (syms : List Nat)
  | qframe (tiles : List Nat)
  /-- A raw hexadecimal word, the only way to write a "must be zero" bit. -/
  | raw (cw : CmdWord)
deriving DecidableEq, Repr

/-- An operand as a field of `w` bits; the assembler refuses one that does not fit (R59). -/
def field (w n : Nat) : Option (BitVec w) := if n < 2 ^ w then some (BitVec.ofNat w n) else none

/-- A tile operand: zero-extended from `L` bits, refused if it does not fit them (R59). -/
def tileField (c : Cfg) (n : Nat) : Option Data := if n < 2 ^ c.L then some (BitVec.ofNat 64 n) else none

def asmRsym (n : Nat) : Option CmdWord := (field 16 n).map fun imm => encode (.rsym 0 imm)

def asmQtile (c : Cfg) (n : Nat) : Option CmdWord := (tileField c n).map fun t => encode (.qtile t)

/-- The command words of a line (R59), a pseudo-command by its expansion (R60). -/
def assemble (c : Cfg) : AsmLine → Option (List CmdWord)
  | .nop => some [encode (.nop 0)]
  | .srst => some [encode (.srst 0)]
  | .rdcsr csr => (field 8 csr).map fun n => [encode (.rdcsr 0 n 0)]
  | .wrcsr csr val => do
    let n ← field 8 csr
    let v ← field 32 val
    return [encode (.wrcsr 0 n v)]
  | .qtile tile => (asmQtile c tile).map fun w => [w]
  | .lookup index => (field 16 index).map fun imm => [encode (.lookup 0 imm)]
  | .lookupb addr => (field 16 addr).map fun imm => [encode (.lookupb 0 imm)]
  | .rsym sym => (asmRsym sym).map fun w => [w]
  | .rend => some [encode (.rend 0)]
  | .setmodeDict => some [encode (.wrcsr 0 0 0)]
  | .setmodePixel => some [encode (.wrcsr 0 0 1)]
  | .setmodeDictChain => some [encode (.wrcsr 0 0 2)]
  | .rseq syms => (syms.mapM asmRsym).map fun ws => ws ++ [encode (.rend 0)]
  | .qframe tiles => (tiles.mapM (asmQtile c)).map fun ws => ws ++ [encode (.rend 0)]
  | .raw cw => some [cw]

/-! ### The text of a line (R59): characters to `AsmLine` -/

def digitValue (ch : Char) : Option Nat :=
  if '0' ≤ ch ∧ ch ≤ '9' then some (ch.toNat - '0'.toNat)
  else if 'a' ≤ ch ∧ ch ≤ 'f' then some (ch.toNat - 'a'.toNat + 10)
  else if 'A' ≤ ch ∧ ch ≤ 'F' then some (ch.toNat - 'A'.toNat + 10)
  else none

/-- Digits in a base, most significant first. -/
def digits (base : Nat) (acc : Nat) : List Char → Option Nat
  | [] => some acc
  | ch :: rest =>
    match digitValue ch with
    | some d => if d < base then digits base (acc * base + d) rest else none
    | none => none

/-- A number is decimal, or hexadecimal with the prefix `0x` (R59). -/
def number : List Char → Option Nat
  | [] => none
  | '0' :: 'x' :: ch :: rest => digits 16 0 (ch :: rest)
  | text => digits 10 0 text

/-- A CSR operand is its name in lower case or its number (R59). -/
def csrOperand (text : List Char) : Option Nat :=
  if text = ['c', 't', 'r', 'l'] then some 0
  else if text = ['s', 't', 'a', 't', 'u', 's'] then some 1
  else if text = ['e', 'r', 'r'] then some 2
  else if text = ['r', 'u', 'n'] then some 3
  else if text = ['q', 'r', 'e', 's'] then some 4
  else if text = ['p', 'a', 'r', 'a', 'm'] then some 5
  else number text

/-- A raw word: 18 hexadecimal digits after `0x`, the opcode first, an underscore for the eye
(spec/00_scope.md section 7). -/
def rawWord : List Char → Option CmdWord
  | '0' :: 'x' :: rest =>
    if (rest.filter (· ≠ '_')).length = 18 then (digits 16 0 (rest.filter (· ≠ '_'))).map (BitVec.ofNat 72)
    else none
  | _ => none

def isBlank (ch : Char) : Bool := ch = ' ' || ch = '\t' || ch = '\r'

/-- Without the blanks at either end. -/
def trimmed (text : List Char) : List Char :=
  ((text.dropWhile isBlank).reverse.dropWhile isBlank).reverse

/-- The pieces of a text between commas. -/
def pieces (sep : Char) : List Char → List (List Char)
  | [] => [[]]
  | ch :: rest =>
    match pieces sep rest with
    | [] => [[ch]]
    | p :: ps => if ch = sep then [] :: p :: ps else (ch :: p) :: ps

/-- The operands of a line: separated by commas; none when the rest of the line is blank (R59). -/
def operandTexts (text : List Char) : List (List Char) :=
  if trimmed text = [] then [] else (pieces ',' text).map trimmed

/-- One line of text: none of it is a command after the comment sign `#` (R59). A blank line is no line. -/
def parseLine (text : List Char) : Option (Option AsmLine) :=
  let body := trimmed (text.takeWhile (· ≠ '#'))
  let word := String.ofList (body.takeWhile fun ch => !isBlank ch)
  let ops := operandTexts (body.dropWhile fun ch => !isBlank ch)
  if body = [] then some none
  else
    (match word, ops with
      | "nop", [] => some AsmLine.nop
      | "srst", [] => some .srst
      | "rdcsr", [a] => (csrOperand a).map .rdcsr
      | "wrcsr", [a, b] => (csrOperand a).bind fun n => (number b).map (.wrcsr n)
      | "qtile", [a] => (number a).map .qtile
      | "lookup", [a] => (number a).map .lookup
      | "lookupb", [a] => (number a).map .lookupb
      | "rsym", [a] => (number a).map .rsym
      | "rend", [] => some .rend
      | "setmode", [['d', 'i', 'c', 't']] => some .setmodeDict
      | "setmode", [['p', 'i', 'x', 'e', 'l']] => some .setmodePixel
      | "setmode", [['d', 'i', 'c', 't'], ['c', 'h', 'a', 'i', 'n']] => some .setmodeDictChain
      | "rseq", l => (l.mapM number).map .rseq
      | "qframe", l => (l.mapM number).map .qframe
      | _, [] => (rawWord body).map .raw
      | _, _ => none).map some

/-- The command words of a text, one command a line (R59). -/
def assembleText (c : Cfg) (text : List Char) : Option (List CmdWord) := do
  let lines ← (pieces '\n' text).mapM parseLine
  let words ← (lines.filterMap id).mapM (assemble c)
  return words.flatten

end Sys2Proof.Machine
end

