-- ==== Sys2Proof/Machine/Views.lean ====
section
/-!
DEFINITION. Functions the spec defines beside the block, so that what it promises can be stated: `Quantize`
and the scan's loop invariant (spec/40_tile_quantizer.md R70, R74), the encoder and the decoder on sequences (spec/41_run_length_encoder.md R92, R93,
R96), the images of the codebook (spec/20_memory.md R36), the frame index sequence (R44) and the reconstruction of
a frame (spec/42_codebook_lut.md R109). The block contains none of these; no command reads them.
-/

namespace Sys2Proof.Machine

/-! ### The quantizer as a function -/

/-- `Quantize(t) = (i, d)` (R70): `d` is the least distance of a codeword from `t`, and `i` the least index at that
distance. -/
def Quantizes (c : Cfg) (t : Data) (i d : Nat) : Prop :=
  (∃ w, cbRead c i = some w ∧ hd t w = d) ∧
  (∀ j w, cbRead c j = some w → d ≤ hd t w) ∧
  (∀ j w, cbRead c j = some w → hd t w = d → i ≤ j)

/-- The loop invariant of R74 after `n` comparisons of the scan of tile `t`: the best distance is that of some codeword
below `n` and no codeword below `n` is nearer, and the best index is the first at that distance. Before the
first comparison `best_dist` is 127, larger than any distance (R73). -/
structure ScanInv (c : Cfg) (t : Data) (n : Nat) (r : ScanRegs) : Prop where
  tile : r.tileReg = t
  index : r.scanIdx.toNat = n
  start : n = 0 → r.bestIdx = 0#11 ∧ r.bestDist = 127#7
  found : 1 ≤ n → r.bestIdx.toNat < n ∧ ∃ w, cbRead c r.bestIdx.toNat = some w ∧ hd t w = r.bestDist.toNat
  least : ∀ j < n, ∀ w, cbRead c j = some w → r.bestDist.toNat ≤ hd t w
  first : ∀ j < n, ∀ w, cbRead c j = some w → hd t w = r.bestDist.toNat → r.bestIdx.toNat ≤ j

/-! ### The encoder as a function on sequences -/

/-- `RlePush(s)` for each symbol of a sequence in order: the run after it and the words emitted (R93). -/
def pushAll (m : RleMode) : Run → List (BitVec 11) → Run × List EncWord
  | r, [] => (r, [])
  | r, x :: xs =>
    ((pushAll m (runPush m r x).1 xs).1, (runPush m r x).2 ++ (pushAll m (runPush m r x).1 xs).2)

/-- `RleEncode(mode, seq)`: from no open run, push every symbol and end the sequence (R93). -/
def rleEncode (m : RleMode) (seq : List (BitVec 11)) : List EncWord :=
  (pushAll m Run.idle seq).2 ++ runEnd m (pushAll m Run.idle seq).1

/-- The maximal runs of a sequence, each a symbol with its length (R93). -/
def maximalRuns : List (BitVec 11) → List (BitVec 11 × Nat)
  | [] => []
  | x :: xs =>
    match maximalRuns xs with
    | [] => [(x, 1)]
    | (y, n) :: rest => if x = y then (y, n + 1) :: rest else (x, 1) :: (y, n) :: rest

/-- The words of a maximal run of `n` equal symbols (R92): the full words, then the rest if there is one. -/
def runWords (m : RleMode) (sym : BitVec 11) (n : Nat) : List EncWord :=
  List.replicate (n / m.maxCnt) (pack m sym (BitVec.ofNat 7 m.maxCnt)) ++
    (if n % m.maxCnt = 0 then [] else [pack m sym (BitVec.ofNat 7 (n % m.maxCnt))])

/-- The closed form of `RleEncode` (R93): the words of each maximal run in order, then the sentinel. -/
def rleClosedForm (m : RleMode) (seq : List (BitVec 11)) : List EncWord :=
  ((maximalRuns seq).flatMap fun p => runWords m p.1 p.2) ++ [sentinel m]

/-- The decoder of R96: it stops at the first word of value 0 and otherwise expands `word[CNT_W-1:0]` copies of the
symbol `word[WORD_W-1:CNT_W]`. Words without a 0 are outside its domain and have no result (V13). -/
def rleDecode (m : RleMode) : List EncWord → Option (List (BitVec 11))
  | [] => none
  | w :: ws =>
    if w.value = 0 then some []
    else
      (rleDecode m ws).map fun rest =>
        List.replicate (w.value % 2 ^ m.cntW) (BitVec.ofNat 11 (w.value / 2 ^ m.cntW % 2 ^ m.symW)) ++ rest

/-- The byte order in which a consumer stores 16-bit words: the open parameter `ENC_BYTE_ORDER`, read by no rule of
the block (R43, V15). -/
inductive ByteOrder where
  | little
  | big
deriving DecidableEq, Repr

/-- The bytes a consumer of byte order `o` stores for a word, first byte first (R43). -/
def storedBytes (o : ByteOrder) : EncWord → List Byte
  | .w8 v => [v]
  | .w16 v =>
    match o with
    | .little => [v.extractLsb' 0 8, v.extractLsb' 8 8]
    | .big => [v.extractLsb' 8 8, v.extractLsb' 0 8]

/-! ### The codebook's images, frames and tiles -/

/-- The artifact's array [1]: the packed codebook, byte addresses 0 to `K * B - 1` in order (R36). -/
def packedImage (c : Cfg) : List Byte := (List.range (c.K * c.B)).filterMap (cbReadByte c)

/-- The artifact's array [0]: element `e[k]` of codeword `i` at position `i * L + k` (R36). -/
def rawImage (c : Cfg) : List Bool := c.cb.flatMap fun v => (List.range c.L).map (element c v)

/-- The value of a flattened tile: its first element is the most significant bit (R31). -/
def tileValue (elements : List Bool) : Data :=
  elements.foldl (fun v e => v <<< 1 ||| (BitVec.ofBool e).setWidth 64) 0

/-- The frame index sequence (R44, R80): the index fields `data[15:0]` of the successful `QTILE` responses, in
command order. -/
def frameIndexSequence (log : List (Instr × Rsp)) : List (BitVec 16) :=
  log.filterMap fun entry =>
    match entry with
    | (.qtile _, ⟨.ok, data⟩) => some (data.setWidth 16)
    | _ => none

/-- The pixel in row `y`, column `x` of the frame rebuilt from an index sequence, its tiles in row-major block order
with `tilesPerRow` tiles in a row (R109). A place that R109 gives no pixel has none: a column to the right of the
frame, a row or a tile beyond the sequence, an index without a codeword (DESIGN CHOICE, log entry 23). -/
def rebuiltPixel (c : Cfg) (indices : List Nat) (tilesPerRow y x : Nat) : Option Bool :=
  if x < tilesPerRow * c.side then do
    let index ← indices[y / c.side * tilesPerRow + x / c.side]?
    let codeword ← cbRead c index
    return pixel c codeword (y % c.side) (x % c.side)
  else none

end Sys2Proof.Machine
end

