-- ==== Sys2Proof/Safety.lean ====
section
/-!
DEFINITION. The terms claims use: the invariants of the state (spec/10_state.md R23), a block that is ready to run
(spec/70_reset_and_hazards.md R143), and a complete run (R144).
-/

namespace Sys2Proof.Machine

/-- The invariants of R23, with the legal configuration they are relative to (R3). Item 6 speaks of two states and
is a statement about steps. -/
structure State.Inv (s : State) : Prop where
  /-- `TILE`, `K` and `CB` are legal (R3). -/
  configLegal : s.cfg.legal = true
  /-- R23 item 1. -/
  idleRun : s.run.active = false → s.run.sym = 0 ∧ s.run.cnt = 0
  /-- R23 item 2. -/
  openRun : s.run.active = true →
    1 ≤ s.run.cnt.toNat ∧ s.run.cnt.toNat ≤ s.rleMode.maxCnt ∧ s.run.sym.toNat < 2 ^ s.rleMode.symW
  /-- R23 item 3. -/
  chainDict : s.chain = true → s.rleMode = .dict
  /-- R23 item 4. -/
  noResult : s.qres.valid = false → s.qres.idx = 0 ∧ s.qres.dist = 0
  /-- R23 item 5: the tile of the last successful `QTILE` is the one in `tile_reg`. -/
  result : s.qres.valid = true →
    s.qres.idx.toNat < s.cfg.K ∧ s.qres.dist.toNat ≤ s.cfg.L ∧
      ∃ w, cbRead s.cfg s.qres.idx.toNat = some w ∧ s.qres.dist.toNat = hd s.scan.tileReg w
  /-- R23 item 7: a word that is not a sentinel has a count field of at least 1. -/
  words : ∀ w ∈ s.enc, w.value = 0 ∨ 1 ≤ w.count

/-- The block is described by the rules: its configuration is legal and a reset has been asserted (R3, R143). -/
def State.Ready (s : State) : Prop := s.cfg.legal = true ∧ s.resetSeen = true

/-- The outcome of a run, the responses, `enc` and the fields that `s` holds, is complete in the sense of R144:
every response has code 0, no run is open, and, if anything was pushed, the last word of `enc` is a sentinel. -/
def State.CompleteRun (pushed : Bool) (s : State) : Prop :=
  (∀ r ∈ s.rsps, r.code = .ok) ∧ s.run.active = false ∧
    (pushed = true → ∃ w, s.enc.getLast? = some w ∧ w.value = 0)

/-- The run of the command words `words` is complete (R144): they are executed one after another from the reset state
with `enc` empty. -/
def RunIsComplete (c : Cfg) (words : List CmdWord) : Prop :=
  ∃ t, runCommands words (State.resetWith c) = .next t ∧ t.CompleteRun (anyPush words (State.resetWith c))

end Sys2Proof.Machine
end

