-- ==== Sys2Proof/Certificates/Slice0/Obligations.lean ====
section
/-!
DEFINITION. The statements about the model. `respond`, `raise` and `answerLocked` are pinned down by
`ResponsesAndErrorsInFull`, and the other statements use them.
-/

open Sys2Proof Sys2Proof.Machine

/-! ### Encoding (spec/30_encoding.md) -/

/-- No bit of a command word is dropped: decoding an encoded command gives it back, and a word that decodes is the
encoding of what it decodes to (R51, R54). -/
def Obligations.DecodeEncodeRoundTrip : Prop :=
  (∀ i : Instr, decode (encode i) = .ok i) ∧
  ∀ (cw : CmdWord) (i : Instr), decode cw = .ok i → encode i = cw

/-- R55: every opcode but the nine is illegal; there are 247; the all-zero word is `NOP` and the all-ones word is
illegal. An illegal word raises `ILLEGAL_OP` and changes nothing else. -/
def Obligations.ReservedOpcodesAreIllegal : Prop :=
  (∀ cw : CmdWord, (∃ i, decode cw = .ok i) ↔
    cw.op ∈ [0x00#8, 0x01#8, 0x02#8, 0x03#8, 0x10#8, 0x11#8, 0x12#8, 0x20#8, 0x21#8]) ∧
  (∀ (cw : CmdWord) (s : State),
    cw.op ∉ [0x00#8, 0x01#8, 0x02#8, 0x03#8, 0x10#8, 0x11#8, 0x12#8, 0x20#8, 0x21#8] → s.err = 0#6 →
      runCommand cw s =
        .next { s with err := s.err ||| 1#6, rsps := s.rsps ++ [⟨.error .illegalOp, 0#64⟩] }) ∧
  ((List.range 256).filter fun n => decide (BitVec.ofNat 8 n ∉
    [0x00#8, 0x01#8, 0x02#8, 0x03#8, 0x10#8, 0x11#8, 0x12#8, 0x20#8, 0x21#8])).length = 247 ∧
  decode 0#72 = .ok (.nop 0#64) ∧
  decode (BitVec.allOnes 72) = .error (.illegalOp 0xFF#8)

/-- R52: every operand field is taken from the contiguous bits the format table gives; a "must be zero" bit that is 1
raises `BAD_OPERAND` and does nothing else, and never selects a different command. -/
def Obligations.OperandFieldsAndMustBeZeroBits : Prop :=
  (∀ cw : CmdWord,
    (cw.op = 0x00#8 → decode cw = .ok (.nop (cw.extractLsb' 0 64))) ∧
    (cw.op = 0x01#8 → decode cw = .ok (.srst (cw.extractLsb' 0 64))) ∧
    (cw.op = 0x02#8 → decode cw = .ok (.rdcsr (cw.extractLsb' 40 24) (cw.extractLsb' 32 8) (cw.extractLsb' 0 32))) ∧
    (cw.op = 0x03#8 → decode cw = .ok (.wrcsr (cw.extractLsb' 40 24) (cw.extractLsb' 32 8) (cw.extractLsb' 0 32))) ∧
    (cw.op = 0x10#8 → decode cw = .ok (.qtile (cw.extractLsb' 0 64))) ∧
    (cw.op = 0x11#8 → decode cw = .ok (.lookup (cw.extractLsb' 16 48) (cw.extractLsb' 0 16))) ∧
    (cw.op = 0x12#8 → decode cw = .ok (.lookupb (cw.extractLsb' 16 48) (cw.extractLsb' 0 16))) ∧
    (cw.op = 0x20#8 → decode cw = .ok (.rsym (cw.extractLsb' 16 48) (cw.extractLsb' 0 16))) ∧
    (cw.op = 0x21#8 → decode cw = .ok (.rend (cw.extractLsb' 0 64)))) ∧
  ∀ (cw : CmdWord) (i : Instr) (s : State), decode cw = .ok i → i.wellFormed s.cfg = false →
    (s.err = 0#6 ∨ cw.op = 0x01#8 ∨ cw.op = 0x02#8) →
      runCommand cw s =
        .next { s with err := s.err ||| 2#6, rsps := s.rsps ++ [⟨.error .badOperand, 0#64⟩] }

/-- Words written out from the format tables and the vectors of spec/95_test_vectors.md section 2 decode to the
commands they stand for. -/
def Obligations.SpecWordsDecode : Prop :=
  decode 0x00_0000000000000000#72 = .ok (.nop 0#64) ∧
  decode 0x01_0000000000000000#72 = .ok (.srst 0#64) ∧
  decode 0x02_0000000500000000#72 = .ok (.rdcsr 0#24 5#8 0#32) ∧
  decode 0x03_00000007FFFFFFFF#72 = .ok (.wrcsr 0#24 7#8 0xFFFFFFFF#32) ∧
  decode 0x10_0000000000018001#72 = .ok (.qtile 0x18001#64) ∧
  decode 0x11_0000000000010002#72 = .ok (.lookup 1#48 2#16) ∧
  decode 0x12_0000000000000008#72 = .ok (.lookupb 0#48 8#16) ∧
  decode 0x20_0000000000000800#72 = .ok (.rsym 0#48 0x800#16) ∧
  decode 0x21_0000000000000001#72 = .ok (.rend 1#64) ∧
  decode 0x7F_0000000000000000#72 = .error (.illegalOp 0x7F#8)

/-- Every line of assembly that the assembler accepts gives words of well-formed commands, but for a raw word (R59,
R60). -/
def Obligations.AssembledWordsAreWellFormed : Prop :=
  ∀ (c : Cfg) (line : AsmLine) (ws : List CmdWord), (∀ cw, line ≠ .raw cw) → assemble c line = some ws →
    ∀ cw ∈ ws, ∃ i, decode cw = .ok i ∧ i.wellFormed c = true

/-! ### The step and the dispatch (spec/00_scope.md R8, spec/30_encoding.md R53, spec/60_exceptions.md) -/

/-- A step of a block whose host presents a command runs that command, with the event taken off the list; an undefined
opcode is answered by the dispatch. A word placed with `withFetchWord` is run by the very next step. -/
def Obligations.StepRunsThePresentedCommand : Prop :=
  (∀ (s : State) (cw : CmdWord) (rest : List Event), s.Ready → s.inputs = .command cw :: rest →
    (∀ i, decode cw = .ok i → step s = exec i { s with inputs := rest }) ∧
    (∀ e, decode cw = .error e → step s = .next (undefinedOp { s with inputs := rest }))) ∧
  ∀ (s : State) (nbits w : Nat) (i : Instr), s.Ready → decodeTableWord nbits w = some i →
    step (s.withFetchWord nbits w) = exec i s

/-- What the shared operations do in full: a response is appended to the history of the `rsp` port; an error sets its
one sticky bit and answers its code with data 0 and makes no other change (R122); a locked block changes nothing
(R123). The last clauses are the table of codes (R121). -/
def Obligations.ResponsesAndErrorsInFull : Prop :=
  (∀ (code : Code) (data : Data) (s : State),
    respond code data s = { s with rsps := s.rsps ++ [⟨code, data⟩] }) ∧
  (∀ (e : ErrorKind) (s : State),
    raise e s = { s with err := s.err ||| e.bit, rsps := s.rsps ++ [⟨.error e, 0#64⟩] }) ∧
  (∀ s : State, answerLocked s = { s with rsps := s.rsps ++ [⟨.locked, 0#64⟩] }) ∧
  (∀ (e : ErrorKind) (n : Nat), e.bit.getLsbD n = decide (n + 1 = (Code.error e).number.toNat)) ∧
  [Code.ok, .error .illegalOp, .error .badOperand, .error .csrAccess, .error .indexRange, .error .symbolRange,
    .error .cfgBusy, .locked].map Code.number = [0#4, 1#4, 2#4, 3#4, 4#4, 5#4, 6#4, 15#4]

/-- R57: `rw[67:64]` is the code and `rw[63:0]` the data; every command produces exactly one response, and a response
that is not `OK` has data 0. A command appends zero, one or two words (R8). -/
def Obligations.EveryCommandAnswersExactlyOnce : Prop :=
  (∀ r : Rsp, r.word.extractLsb' 64 4 = r.code.number ∧ r.word.extractLsb' 0 64 = r.data) ∧
  ∀ (cw : CmdWord) (s : State), ∃ t r ws, runCommand cw s = .next t ∧ t.rsps = s.rsps ++ [r] ∧
    (r.code ≠ .ok → r.data = 0#64) ∧ ws.length ≤ 2 ∧ t.enc = s.enc ++ ws

/-- R123: while `err != 0` every command other than `RDCSR` and `SRST`, an undefined opcode among them, is answered
`LOCKED` and has no effect whatever. -/
def Obligations.LockedBlockDoesNothing : Prop :=
  ∀ (cw : CmdWord) (s : State), s.err ≠ 0#6 → cw.op ≠ 0x01#8 → cw.op ≠ 0x02#8 →
    runCommand cw s = .next { s with rsps := s.rsps ++ [⟨.locked, 0#64⟩] }

/-- R122: a command that is not answered `OK` changes nothing but `err`; it sets the one bit of its own code, and it
answers data 0. A `LOCKED` answer changes nothing at all. -/
def Obligations.ErrorsArePrecise : Prop :=
  ∀ (cw : CmdWord) (s t : State) (r : Rsp), runCommand cw s = .next t → t.rsps = s.rsps ++ [r] → r.code ≠ .ok →
    r.data = 0#64 ∧
    ((r.code = .locked ∧ s.err ≠ 0#6 ∧ t = { s with rsps := s.rsps ++ [r] }) ∨
      ∃ e, r.code = .error e ∧ t = { s with err := t.err, rsps := s.rsps ++ [r] } ∧
        ∀ n, t.err.getLsbD n = (s.err.getLsbD n || decide (n + 1 = e.number)))

/-- R125: the lock is left only by `SRST` or by a hard reset. -/
def Obligations.LockIsLeftOnlyByReset : Prop :=
  ∀ s t : State, step s = .next t → s.err ≠ 0#6 → t.err = 0#6 →
    ∃ rest, s.inputs = .command (encode (.srst 0#64)) :: rest ∨ s.inputs = .hardReset :: rest ∨
      ∃ cw sent, s.inputs = .hardResetDuring cw sent :: rest

/-- R126: an error made while locked adds its bit to the bits already set and the block stays locked; only `RDCSR` and
`SRST` can make one, and a failed `SRST` resets nothing. -/
def Obligations.NestedErrorsAddBits : Prop :=
  ∀ (cw : CmdWord) (s t : State), s.err ≠ 0#6 → cw ≠ encode (.srst 0#64) → runCommand cw s = .next t →
    t.err ≠ 0#6 ∧ s.err &&& t.err = s.err ∧ (t.err ≠ s.err → cw.op = 0x01#8 ∨ cw.op = 0x02#8) ∧
    (cw.op = 0x01#8 → t = raise .badOperand s)

/-- The block never stops on a command: it stops only where the spec gives no meaning (R3, R42, R49, R143 item 2,
R152), and there it stops by name. -/
def Obligations.StopsOnlyWhereNoRuleApplies : Prop :=
  ∀ s : State,
    (s.cfg.legal = false → step s = .refused .illegalConfig) ∧
    (s.cfg.legal = true → s.resetSeen = false → (∀ rest, s.inputs ≠ .hardReset :: rest) →
      step s = .refused .beforeFirstReset) ∧
    (s.Ready → ∀ cw rest, s.inputs = .overlappingCommand cw :: rest → step s = .refused .secondOutstanding) ∧
    (s.Ready → ∀ cb rest, s.inputs = .codebookChange cb :: rest → step s = .refused .codebookChanged) ∧
    (s.Ready → ∀ rest, s.inputs = .consumerStops :: rest → step s = .fault .consumerStopped) ∧
    (s.Ready → (∀ cw rest, s.inputs ≠ .overlappingCommand cw :: rest) →
      (∀ cb rest, s.inputs ≠ .codebookChange cb :: rest) → (∀ rest, s.inputs ≠ .consumerStops :: rest) →
      ∃ t, step s = .next t)

/-- While nothing is presented the block does nothing (R127), and a delay changes no value (R42). -/
def Obligations.WaitingChangesNothing : Prop :=
  ∀ s : State, s.Ready →
    (s.inputs = [] → step s = .next s) ∧
    ∀ rest, s.inputs = .delay :: rest → step s = .next { s with inputs := rest }

/-! ### The shell's commands (spec/43_system_commands.md) -/

/-- R112: `NOP`. -/
def Obligations.NopRule : Prop :=
  ∀ (mbz : BitVec 64) (s : State),
    (s.err ≠ 0#6 → exec (.nop mbz) s = .next (answerLocked s)) ∧
    (s.err = 0#6 → mbz ≠ 0#64 → exec (.nop mbz) s = .next (raise .badOperand s)) ∧
    (s.err = 0#6 → exec (.nop 0#64) s = .next (respond .ok 0#64 s))

/-- R113: `SRST` runs whether the block is locked or not; every field of R24 is 0 after it, `enc` is not changed, and a
non-zero operand resets nothing. -/
def Obligations.SrstRule : Prop :=
  ∀ (mbz : BitVec 64) (s : State),
    (mbz ≠ 0#64 → exec (.srst mbz) s = .next (raise .badOperand s)) ∧
    ∃ t, exec (.srst 0#64) s = .next t ∧ t.rleMode = .dict ∧ t.chain = false ∧ t.err = 0#6 ∧
      t.run = ⟨false, 0#11, 0#7⟩ ∧ t.qres = ⟨false, 0#11, 0#7⟩ ∧ t.enc = s.enc ∧ t.rsps = s.rsps ++ [⟨.ok, 0#64⟩] ∧
      t.cfg = s.cfg ∧ t.inputs = s.inputs ∧ t.resetSeen = s.resetSeen

/-- R114 with R14, R16 and the layouts of R15 and R17 to R20: `RDCSR` answers the register's value, locked or not, and
changes no state; numbers 6 to 255 raise `CSR_ACCESS`. -/
def Obligations.RdcsrRule : Prop :=
  ∀ (mbzHi : BitVec 24) (csr : BitVec 8) (valMbz : BitVec 32) (s : State),
    (mbzHi ≠ 0#24 ∨ valMbz ≠ 0#32 → exec (.rdcsr mbzHi csr valMbz) s = .next (raise .badOperand s)) ∧
    (5 < csr.toNat → exec (.rdcsr 0#24 csr 0#32) s = .next (raise .csrAccess s)) ∧
    exec (.rdcsr 0#24 0#8 0#32) s = .next (respond .ok
      (BitVec.ofNat 64 ((decide (s.rleMode = .pixel)).toNat + 2 * s.chain.toNat)) s) ∧
    exec (.rdcsr 0#24 1#8 0#32) s = .next (respond .ok
      (BitVec.ofNat 64 (s.run.active.toNat + 2 * s.qres.valid.toNat + 4 * (decide (s.err ≠ 0#6)).toNat)) s) ∧
    exec (.rdcsr 0#24 2#8 0#32) s = .next (respond .ok (BitVec.ofNat 64 s.err.toNat) s) ∧
    exec (.rdcsr 0#24 3#8 0#32) s = .next (respond .ok
      (BitVec.ofNat 64 (s.run.sym.toNat + s.run.cnt.toNat * 2 ^ 16)) s) ∧
    exec (.rdcsr 0#24 4#8 0#32) s = .next (respond .ok
      (BitVec.ofNat 64 (s.qres.idx.toNat + s.qres.dist.toNat * 2 ^ 16)) s) ∧
    (s.cfg.K ≤ 2048 → exec (.rdcsr 0#24 5#8 0#32) s = .next (respond .ok
      (BitVec.ofNat 64 (s.cfg.K + s.cfg.side * 2 ^ 16)) s))

/-- R115: `WRCSR`, its checks in order; the legal values are exactly 0, 1 and 2. -/
def Obligations.WrcsrRule : Prop :=
  ∀ (mbzHi : BitVec 24) (csr : BitVec 8) (val : BitVec 32) (s : State),
    (s.err ≠ 0#6 → exec (.wrcsr mbzHi csr val) s = .next (answerLocked s)) ∧
    (s.err = 0#6 → mbzHi ≠ 0#24 → exec (.wrcsr mbzHi csr val) s = .next (raise .badOperand s)) ∧
    (s.err = 0#6 → csr ≠ 0#8 → exec (.wrcsr 0#24 csr val) s = .next (raise .csrAccess s)) ∧
    (s.err = 0#6 → 3 ≤ val.toNat → exec (.wrcsr 0#24 0#8 val) s = .next (raise .badOperand s)) ∧
    (s.err = 0#6 → val.toNat < 3 → s.run.active = true →
      exec (.wrcsr 0#24 0#8 val) s = .next (raise .cfgBusy s)) ∧
    (s.err = 0#6 → val.toNat < 3 → s.run.active = false →
      exec (.wrcsr 0#24 0#8 val) s = .next (respond .ok 0#64
        { s with rleMode := if val = 1#32 then .pixel else .dict, chain := decide (val = 2#32) }))

/-- R15: a state that meets the invariants of R23 holds 0, 1 or 2 in `CTRL`. -/
def Obligations.CtrlHoldsALegalValue : Prop :=
  ∀ s : State, s.Inv → ctrl s = 0#32 ∨ ctrl s = 1#32 ∨ ctrl s = 2#32

/-! ### The quantizer (spec/40_tile_quantizer.md) -/

/-- R71: the Hamming distance of two `L`-bit values is at most `L`; it is 0 exactly for equal values, symmetric, and
`L` exactly for complements. -/
def Obligations.HammingDistanceLaws : Prop :=
  ∀ (c : Cfg) (a b : Data), c.fits a = true → c.fits b = true →
    hd a b ≤ c.L ∧ (hd a b = 0 ↔ a = b) ∧ hd a b = hd b a ∧
    (hd a b = c.L ↔ b = a ^^^ BitVec.ofNat 64 (2 ^ c.L - 1)) ∧
    hd a b = ((List.range c.L).map fun k => (a.getLsbD k ^^ b.getLsbD k).toNat).sum

/-- R74: the scan of R73 returns exactly `Quantize(t)` of R70, for every codebook. -/
def Obligations.ScanReturnsQuantize : Prop :=
  ∀ (c : Cfg) (t : Data) (i d : Nat), c.legal = true →
    (Quantizes c t i d ↔ (scanTile c t).bestIdx.toNat = i ∧ (scanTile c t).bestDist.toNat = d)

/-- R75, R76, R78: `QTILE` answers the nearest codeword's index and distance, lowest index on ties, keeps them in the
result registers, and with `chain = 1` pushes the index into the encoder. The scan also writes the working registers,
whose values no command can observe (R22); this statement leaves them open. -/
def Obligations.QtileRule : Prop :=
  ∀ (arg : BitVec 64) (s : State), s.cfg.legal = true →
    (s.err ≠ 0#6 → exec (.qtile arg) s = .next (answerLocked s)) ∧
    (s.err = 0#6 → 2 ^ s.cfg.L ≤ arg.toNat → exec (.qtile arg) s = .next (raise .badOperand s)) ∧
    (s.err = 0#6 → arg.toNat < 2 ^ s.cfg.L →
      ∃ i d scan t, Quantizes s.cfg arg i d ∧ i < s.cfg.K ∧ d ≤ s.cfg.L ∧
        t = { s with qres := ⟨true, BitVec.ofNat 11 i, BitVec.ofNat 7 d⟩, scan := scan } ∧
        exec (.qtile arg) s = .next (respond .ok (BitVec.ofNat 64 (i + d * 2 ^ 16))
          (if s.chain then rlePush (BitVec.ofNat 11 i) t else t)))

/-- R73: what the working registers hold when the scan of a successful `QTILE` ends. That they keep these values until
the next scan or reset is the model's own reading (log entry 6): R22 calls them unobservable between commands. -/
def Obligations.WorkingRegistersAfterAScan : Prop :=
  ∀ (arg : BitVec 64) (s : State), s.cfg.legal = true → s.err = 0#6 → arg.toNat < 2 ^ s.cfg.L →
    ∃ t, exec (.qtile arg) s = .next t ∧ t.scan.tileReg = arg ∧ t.scan.scanIdx.toNat = s.cfg.K ∧
      t.scan.bestIdx = t.qres.idx ∧ t.scan.bestDist = t.qres.dist

/-- R77: for a fixed configuration the `OK` response of `QTILE` is a function of the tile alone. -/
def Obligations.QtileResponseDependsOnTheTileAlone : Prop :=
  ∀ (arg : BitVec 64) (s s' t t' : State) (r r' : Rsp), s.cfg = s'.cfg →
    exec (.qtile arg) s = .next t → exec (.qtile arg) s' = .next t' →
    t.rsps = s.rsps ++ [r] → t'.rsps = s'.rsps ++ [r'] → r.code = .ok → r'.code = .ok → r = r'

/-- R81: a chained `QTILE` does what `QTILE` without chaining followed by `RSYM index` does, but for the second
response. -/
def Obligations.ChainedQtileIsQtileThenRsym : Prop :=
  ∀ (arg : BitVec 64) (s : State), s.cfg.legal = true → s.err = 0#6 → s.chain = true → s.rleMode = .dict →
    arg.toNat < 2 ^ s.cfg.L →
    ∃ t u v, exec (.qtile arg) s = .next t ∧ exec (.qtile arg) { s with chain := false } = .next u ∧
      exec (.rsym 0#48 (u.qres.idx.setWidth 16)) u = .next v ∧ v.rsps = u.rsps ++ [⟨.ok, 0#64⟩] ∧
      t = { v with chain := true, rsps := u.rsps }

/-- R81: a sequence of chained `QTILE` commands followed by `REND`, with no run open before, emits exactly
`RleEncode(DICT, [i1, ..., in])` of the indices of the tiles. -/
def Obligations.ChainedTilesAreEncoded : Prop :=
  ∀ (s : State) (tiles : List (BitVec 64)) (rest : List Event), s.Ready → s.err = 0#6 → s.chain = true →
    s.rleMode = .dict → s.run.active = false → (∀ t ∈ tiles, t.toNat < 2 ^ s.cfg.L) →
    s.inputs = tiles.map (fun t => Event.command (encode (.qtile t))) ++ .command (encode (.rend 0#64)) :: rest →
    ∃ t indices, Host.Core.run Sys2Proof.core (tiles.length + 1) s = .next t ∧
      List.Forall₂ (fun tile i => ∃ d, Quantizes s.cfg tile i d) tiles indices ∧
      t.enc = s.enc ++ rleEncode .dict (indices.map (BitVec.ofNat 11)) ∧ t.run.active = false ∧ t.inputs = rest

/-- R22: the working registers of the scan cannot be observed: whatever they hold at a command boundary, every command
gives the same response, the same words and the same state fields. -/
def Obligations.WorkingRegistersAreUnobservable : Prop :=
  ∀ (cw : CmdWord) (s t : State) (scan : ScanRegs) (draws : Nat), runCommand cw s = .next t →
    ∃ scan' draws', runCommand cw { s with scan := scan, draws := draws } =
      .next { t with scan := scan', draws := draws' }

/-! ### The codebook (spec/20_memory.md, spec/42_codebook_lut.md) -/

/-- R106: `LOOKUP`. -/
def Obligations.LookupRule : Prop :=
  ∀ (mbz : BitVec 48) (imm : BitVec 16) (s : State),
    (s.err ≠ 0#6 → exec (.lookup mbz imm) s = .next (answerLocked s)) ∧
    (s.err = 0#6 → mbz ≠ 0#48 → exec (.lookup mbz imm) s = .next (raise .badOperand s)) ∧
    (s.err = 0#6 → s.cfg.K ≤ imm.toNat → exec (.lookup 0#48 imm) s = .next (raise .indexRange s)) ∧
    (s.err = 0#6 → imm.toNat < s.cfg.K →
      ∃ v, s.cfg.cb[imm.toNat]? = some v ∧ exec (.lookup 0#48 imm) s = .next (respond .ok v s))

/-- R107 with the byte of R34 and R35: `LOOKUPB`. -/
def Obligations.LookupbRule : Prop :=
  ∀ (mbz : BitVec 48) (imm : BitVec 16) (s : State),
    (s.err ≠ 0#6 → exec (.lookupb mbz imm) s = .next (answerLocked s)) ∧
    (s.err = 0#6 → mbz ≠ 0#48 → exec (.lookupb mbz imm) s = .next (raise .badOperand s)) ∧
    (s.err = 0#6 → s.cfg.K * s.cfg.B ≤ imm.toNat →
      exec (.lookupb 0#48 imm) s = .next (raise .indexRange s)) ∧
    (s.err = 0#6 → imm.toNat < s.cfg.K * s.cfg.B →
      ∃ v, s.cfg.cb[imm.toNat / s.cfg.B]? = some v ∧
        exec (.lookupb 0#48 imm) s = .next (respond .ok
          (BitVec.ofNat 64 (v.toNat / 2 ^ (s.cfg.L - 8 - 8 * (imm.toNat % s.cfg.B)) % 256)) s))

/-- R108: the byte that `LOOKUPB(i*B + j)` answers is bits `L-1-8j : L-8-8j` of what `LOOKUP(i)` answers, and the bytes
that `LOOKUPB` answers at addresses `0` to `K*B - 1` in order are the packed codebook. -/
def Obligations.CodebookViewsAgree : Prop :=
  (∀ (s : State) (i j : Nat), s.cfg.legal = true → s.err = 0#6 → i < s.cfg.K → j < s.cfg.B →
    ∃ v b, exec (.lookup 0#48 (BitVec.ofNat 16 i)) s = .next (respond .ok v s) ∧
      exec (.lookupb 0#48 (BitVec.ofNat 16 (i * s.cfg.B + j))) s = .next (respond .ok b s) ∧
      b.toNat < 256 ∧ ∀ k < 8, b.getLsbD k = v.getLsbD (s.cfg.L - 8 - 8 * j + k)) ∧
  ∀ s : State, s.cfg.legal = true → s.err = 0#6 →
    (packedImage s.cfg).length = s.cfg.K * s.cfg.B ∧
    ∀ a < s.cfg.K * s.cfg.B, ∃ byte, (packedImage s.cfg)[a]? = some byte ∧
      exec (.lookupb 0#48 (BitVec.ofNat 16 a)) s = .next (respond .ok (byte.setWidth 64) s)

/-- R36 with R34: position `i*L + k` of the raw image is element `e[k]` of codeword `i`, bit `L-1-k` of it, and the
packed image holds it in bit `7 - k mod 8` of byte `k div 8` of the codeword. -/
def Obligations.RawAndPackedImages : Prop :=
  ∀ (c : Cfg) (i k : Nat) (v : Data), c.legal = true → cbRead c i = some v → k < c.L →
    (rawImage c)[i * c.L + k]? = some (v.getLsbD (c.L - 1 - k)) ∧
    ∃ byte, (packedImage c)[i * c.B + k / 8]? = some byte ∧ byte.getLsbD (7 - k % 8) = v.getLsbD (c.L - 1 - k)

/-- R35: a codeword is its bytes, the byte at the lowest address the most significant (R37). -/
def Obligations.CodewordIsItsBytes : Prop :=
  ∀ (c : Cfg) (i : Nat) (v : Data), c.legal = true → cbRead c i = some v →
    ∃ bytes : List Byte, bytes.map some = (List.range c.B).map (fun j => cbReadByte c (i * c.B + j)) ∧
      v.toNat = bytes.foldl (fun acc (b : Byte) => acc * 256 + b.toNat) 0

/-! ### The encoder (spec/41_run_length_encoder.md) -/

/-- R85 and R86: the widths of the two modes, and the packed word: the symbol above the count, which fits the word width
of its mode. In DICT mode `word[15:5] = sym` and `word[4:0] = cnt`, in PIXEL mode `word[7] = sym` and
`word[6:0] = cnt`. -/
def Obligations.PackedWordLayout : Prop :=
  ([RleMode.dict, RleMode.pixel].map fun m => (m.bit.toNat, m.symW, m.cntW, m.wordW, m.maxCnt)) =
    [(0, 11, 5, 16, 31), (1, 1, 7, 8, 127)] ∧
  (∀ m : RleMode, (m = .dict ∨ m = .pixel) ∧ m.wordW = m.symW + m.cntW ∧ m.maxCnt = 2 ^ m.cntW - 1) ∧
  (∀ (m : RleMode) (sym : BitVec 11) (cnt : BitVec 7), sym.toNat < 2 ^ m.symW → cnt.toNat < 2 ^ m.cntW →
    (pack m sym cnt).value = sym.toNat * 2 ^ m.cntW + cnt.toNat ∧
    (pack m sym cnt).value / 2 ^ m.cntW = sym.toNat ∧ (pack m sym cnt).value % 2 ^ m.cntW = cnt.toNat ∧
    (pack m sym cnt).value < 2 ^ m.wordW ∧ (pack m sym cnt).width = m.wordW) ∧
  (∀ (sym : BitVec 11) (cnt : BitVec 7), cnt.toNat < 32 →
    ∃ w : BitVec 16, pack .dict sym cnt = .w16 w ∧ w.extractLsb' 5 11 = sym ∧
      (w.extractLsb' 0 5).toNat = cnt.toNat) ∧
  ∀ (sym : BitVec 11) (cnt : BitVec 7), sym.toNat < 2 →
    ∃ w : BitVec 8, pack .pixel sym cnt = .w8 w ∧ (w.extractLsb' 7 1).toNat = sym.toNat ∧
      w.extractLsb' 0 7 = cnt

/-- R90 with the four cases of `RlePush` (R88). -/
def Obligations.RsymRule : Prop :=
  ∀ (mbz : BitVec 48) (imm : BitVec 16) (s : State),
    (s.err ≠ 0#6 → exec (.rsym mbz imm) s = .next (answerLocked s)) ∧
    (s.err = 0#6 → mbz ≠ 0#48 → exec (.rsym mbz imm) s = .next (raise .badOperand s)) ∧
    (s.err = 0#6 → 2 ^ s.rleMode.symW ≤ imm.toNat → exec (.rsym 0#48 imm) s = .next (raise .symbolRange s)) ∧
    (s.err = 0#6 → imm.toNat < 2 ^ s.rleMode.symW →
      (s.run.active = false → exec (.rsym 0#48 imm) s = .next (respond .ok 0#64
        { s with run := ⟨true, imm.setWidth 11, 1#7⟩ })) ∧
      (s.run.active = true → imm.setWidth 11 = s.run.sym → s.run.cnt.toNat < s.rleMode.maxCnt →
        exec (.rsym 0#48 imm) s = .next (respond .ok 0#64
          { s with run := ⟨true, s.run.sym, BitVec.ofNat 7 (s.run.cnt.toNat + 1)⟩ })) ∧
      (s.run.active = true → imm.setWidth 11 = s.run.sym → s.run.cnt.toNat = s.rleMode.maxCnt →
        exec (.rsym 0#48 imm) s = .next (respond .ok 0#64
          { s with
            run := ⟨true, s.run.sym, 1#7⟩
            enc := s.enc ++ [pack s.rleMode s.run.sym (BitVec.ofNat 7 s.rleMode.maxCnt)] })) ∧
      (s.run.active = true → imm.setWidth 11 ≠ s.run.sym →
        exec (.rsym 0#48 imm) s = .next (respond .ok 0#64
          { s with
            run := ⟨true, imm.setWidth 11, 1#7⟩
            enc := s.enc ++ [pack s.rleMode s.run.sym s.run.cnt] })))

/-- R91 with R89: `REND` flushes the open run if there is one, appends the sentinel and closes the run. -/
def Obligations.RendRule : Prop :=
  ∀ (mbz : BitVec 64) (s : State),
    (s.err ≠ 0#6 → exec (.rend mbz) s = .next (answerLocked s)) ∧
    (s.err = 0#6 → mbz ≠ 0#64 → exec (.rend mbz) s = .next (raise .badOperand s)) ∧
    (s.err = 0#6 → exec (.rend 0#64) s = .next (respond .ok 0#64
      { s with
        run := ⟨false, 0#11, 0#7⟩
        enc := s.enc ++ (if s.run.active then [pack s.rleMode s.run.sym s.run.cnt] else []) ++
          [sentinel s.rleMode] }))

/-- R92: a run of `n` equal symbols is split into full words and one word for the rest, `ceil(n / MAXCNT)` words in
all, and is no error. -/
def Obligations.LongRunsAreSplit : Prop :=
  ∀ (m : RleMode) (x : BitVec 11) (n : Nat), 1 ≤ n →
    rleEncode m (List.replicate n x) =
      List.replicate (n / m.maxCnt) (pack m x (BitVec.ofNat 7 m.maxCnt)) ++
        (if n % m.maxCnt = 0 then [] else [pack m x (BitVec.ofNat 7 (n % m.maxCnt))]) ++ [sentinel m] ∧
    (rleEncode m (List.replicate n x)).length = (n + m.maxCnt - 1) / m.maxCnt + 1

/-- R93: the closed form of the encoder, with the maximal runs it speaks of, and the number of words. -/
def Obligations.EncoderClosedForm : Prop :=
  ∀ (m : RleMode) (seq : List (BitVec 11)),
    rleEncode m seq = ((maximalRuns seq).flatMap fun p => runWords m p.1 p.2) ++ [sentinel m] ∧
    ((maximalRuns seq).flatMap fun p => List.replicate p.2 p.1) = seq ∧
    List.IsChain (fun p q => p.1 ≠ q.1) (maximalRuns seq) ∧
    (∀ p ∈ maximalRuns seq, 1 ≤ p.2) ∧
    (rleEncode m seq).length = 1 + ((maximalRuns seq).map fun p => (p.2 + m.maxCnt - 1) / m.maxCnt).sum

/-- R95: the value 0 occurs exactly once in an encoded sequence, as its last word; R100: every word has the width of
the mode. -/
def Obligations.SentinelIsUnique : Prop :=
  ∀ (m : RleMode) (seq : List (BitVec 11)), (∀ x ∈ seq, x.toNat < 2 ^ m.symW) →
    (∃ ws, rleEncode m seq = ws ++ [sentinel m] ∧ (∀ w ∈ ws, w.value ≠ 0 ∧ 1 ≤ w.count) ∧ (sentinel m).value = 0) ∧
    ∀ w ∈ rleEncode m seq, w.width = m.wordW

/-- R97: decoding an encoded sequence gives it back, for both modes and every sequence. -/
def Obligations.DecoderInvertsEncoder : Prop :=
  ∀ (m : RleMode) (seq : List (BitVec 11)), (∀ x ∈ seq, x.toNat < 2 ^ m.symW) →
    rleDecode m (rleEncode m seq) = some seq

/-- R98: the edge cases and the scenario the document names. -/
def Obligations.DocumentScenario : Prop :=
  (∀ x : BitVec 11, rleEncode .dict [x] = [pack .dict x 1#7, sentinel .dict] ∧
    (pack .dict x 1#7).value = 32 * x.toNat + 1) ∧
  rleEncode .dict [2#11, 2#11, 2#11, 5#11, 5#11, 1#11] =
    [.w16 0x0043#16, .w16 0x00A2#16, .w16 0x0021#16, .w16 0x0000#16] ∧
  rleDecode .dict [.w16 0x0043#16, .w16 0x00A2#16, .w16 0x0021#16, .w16 0x0000#16] =
    some [2#11, 2#11, 2#11, 5#11, 5#11, 1#11]

/-- R93 as the machine runs it: the commands `RSYM` for each symbol of a sequence and then `REND`, presented one after
another with no run open before, all answer `OK` and append exactly `RleEncode(mode, seq)`; if every response before
was `OK` too, the outcome is complete, whether or not anything was pushed (R144). -/
def Obligations.PushedSequenceIsEncoded : Prop :=
  ∀ (s : State) (seq : List (BitVec 11)) (rest : List Event), s.Ready → s.err = 0#6 → s.run.active = false →
    (∀ x ∈ seq, x.toNat < 2 ^ s.rleMode.symW) →
    s.inputs = seq.map (fun x => Event.command (encode (.rsym 0#48 (x.setWidth 16)))) ++
      .command (encode (.rend 0#64)) :: rest →
    ∃ t, Host.Core.run Sys2Proof.core (seq.length + 1) s = .next t ∧ t.enc = s.enc ++ rleEncode s.rleMode seq ∧
      t.rsps = s.rsps ++ List.replicate (seq.length + 1) ⟨.ok, 0#64⟩ ∧ t.run = ⟨false, 0#11, 0#7⟩ ∧
      t.inputs = rest ∧ ((∀ r ∈ s.rsps, r.code = .ok) → ∀ pushed, t.CompleteRun pushed)

/-! ### Frames -/

/-- `NOP`, `RDCSR`, `LOOKUP` and `LOOKUPB` write no state field (R112, R114, R106, R107): only the response history
grows, and an error sets its bit of `err`. -/
def Obligations.ReadsWriteNoField : Prop :=
  ∀ (i : Instr) (s t : State), i.opcode ∈ [0x00#8, 0x02#8, 0x11#8, 0x12#8] → exec i s = .next t →
    t = { s with err := t.err, rsps := t.rsps } ∧ (t.rsps.getLast?.map Rsp.code = some .ok → t.err = s.err)

/-- `WRCSR` writes `rle_mode` and `chain` (R115), `RSYM` and `REND` the run and `enc` (R90, R91), `QTILE` the result,
the working registers and, with `chain = 1`, the run and `enc` (R75, R149); nothing else changes but the response
history and, on an error, `err`. -/
def Obligations.WritesChangeOnlyTheirFields : Prop :=
  ∀ s t : State,
    (∀ mbzHi csr val, exec (.wrcsr mbzHi csr val) s = .next t →
      t = { s with rleMode := t.rleMode, chain := t.chain, err := t.err, rsps := t.rsps }) ∧
    (∀ mbz imm, exec (.rsym mbz imm) s = .next t →
      t = { s with run := t.run, enc := t.enc, err := t.err, rsps := t.rsps }) ∧
    (∀ mbz, exec (.rend mbz) s = .next t →
      t = { s with run := t.run, enc := t.enc, err := t.err, rsps := t.rsps }) ∧
    (∀ arg, exec (.qtile arg) s = .next t →
      t = { s with qres := t.qres, scan := t.scan, run := t.run, enc := t.enc, err := t.err, rsps := t.rsps } ∧
      (s.chain = false → t.run = s.run ∧ t.enc = s.enc)) ∧
    (∀ i, exec i s = .next t → t.rsps.getLast?.map Rsp.code = some .ok → i.opcode ≠ 0x01#8 → t.err = s.err)

/-- R13: which commands set and clear the flags `run_active` and `qres_valid`. -/
def Obligations.FlagsAreSetAndClearedByTheirCommands : Prop :=
  ∀ (i : Instr) (s t : State), exec i s = .next t →
    (s.qres.valid = false → t.qres.valid = true → i.opcode = 0x10#8) ∧
    (s.qres.valid = true → t.qres.valid = false → i = .srst 0#64) ∧
    (s.run.active = false → t.run.active = true → i.opcode = 0x20#8 ∨ (i.opcode = 0x10#8 ∧ s.chain = true)) ∧
    (s.run.active = true → t.run.active = false → i = .rend 0#64 ∨ i = .srst 0#64)

/-! ### Reset (spec/70_reset_and_hazards.md, spec/10_state.md R24) -/

/-- R140: a hard reset in any state puts every field at R24's value; the parameters and the history `enc` are
untouched, nothing is answered, and the block runs from then on. -/
def Obligations.HardResetRule : Prop :=
  ∀ (s : State) (rest : List Event), s.cfg.legal = true → s.inputs = .hardReset :: rest →
    ∃ t, step s = .next t ∧ t.rleMode = .dict ∧ t.chain = false ∧ t.err = 0#6 ∧ t.run = ⟨false, 0#11, 0#7⟩ ∧
      t.qres = ⟨false, 0#11, 0#7⟩ ∧ t.enc = s.enc ∧ t.rsps = s.rsps ∧ t.cfg = s.cfg ∧ t.inputs = rest ∧ t.Ready

/-- R142: a hard reset during a command leaves the reset state whatever the command had done, gives no response, and
lets any prefix of the command's emission list reach `enc`. -/
def Obligations.HardResetDuringACommand : Prop :=
  ∀ (s : State) (cw : CmdWord) (rest : List Event), s.Ready →
    ∃ u ws, runCommand cw { s with inputs := rest } = .next u ∧ u.enc = s.enc ++ ws ∧
      ∀ sent, s.inputs = .hardResetDuring cw sent :: rest →
        ∃ t, step s = .next t ∧ t.enc = s.enc ++ ws.take sent ∧ t.rsps = s.rsps ∧ t.rleMode = .dict ∧
          t.chain = false ∧ t.err = 0#6 ∧ t.run = ⟨false, 0#11, 0#7⟩ ∧ t.qres = ⟨false, 0#11, 0#7⟩ ∧
          t.cfg = s.cfg ∧ t.inputs = rest

/-- R141: `SRST` and a hard reset leave the state fields identical; only the response differs. That they leave the same
working registers too is the model's choice (log entry 3: one free value for each reset, whichever reset it is); the
spec leaves those unspecified. -/
def Obligations.SrstAndHardResetAgree : Prop :=
  ∀ (s : State) (rest : List Event), s.Ready → s.inputs = .hardReset :: rest →
    ∃ t u, step s = .next t ∧ exec (.srst 0#64) { s with inputs := rest } = .next u ∧
      u = { t with rsps := s.rsps ++ [⟨.ok, 0#64⟩] }

/-- The state after reset (R24): every field the spec gives a reset value holds it, under every configuration. The
working registers are unspecified and not spoken of. -/
def Obligations.StateAfterReset : Prop :=
  ∀ c : Cfg, let s := State.resetWith c
    s.rleMode = .dict ∧ s.chain = false ∧ s.err = 0#6 ∧ s.run = ⟨false, 0#11, 0#7⟩ ∧ s.qres = ⟨false, 0#11, 0#7⟩ ∧
    ctrl s = 0#32 ∧ status s = 0#32 ∧ errCsr s = 0#32 ∧ runCsr s = 0#32 ∧ qresCsr s = 0#32

/-! ### Whole-machine rules -/

/-- R21: no step removes or changes an entry of `enc`; and the parameters never change (R3). That no step removes a
response is the model's choice (log entry 7: the list of responses is a field, kept across resets). -/
def Obligations.HistoriesOnlyGrow : Prop :=
  ∀ s t : State, step s = .next t →
    (∃ ws, t.enc = s.enc ++ ws) ∧ (∃ rs, t.rsps = s.rsps ++ rs) ∧ t.cfg = s.cfg

/-- The invariants of R23 hold in the state after reset, for every legal configuration. -/
def Obligations.InvariantsHoldAfterReset : Prop :=
  (∀ c : Cfg, c.legal = true → (State.resetWith c).Inv) ∧ State.reset.Inv

/-- R23: every step keeps the invariants, whatever the surroundings do. -/
def Obligations.EveryStepKeepsTheInvariants : Prop :=
  ∀ s t : State, s.Inv → step s = .next t → t.Inv

/-- R23 item 6: `rle_mode` does not change while a run is open. -/
def Obligations.ModeIsFixedWhileARunIsOpen : Prop :=
  ∀ s t : State, step s = .next t → s.run.active = true → t.run.active = true → t.rleMode = s.rleMode

/-- R41: what the `enc` port carries for a word, and R43: what a consumer of either byte order stores. -/
def Obligations.EncPortAndStoredBytes : Prop :=
  (∀ v : BitVec 16, (EncWord.w16 v).port = (v, false)) ∧
  (∀ v : BitVec 8, (EncWord.w8 v).port.2 = true ∧ (EncWord.w8 v).port.1.toNat = v.toNat) ∧
  ∀ v : BitVec 16,
    (storedBytes .big (.w16 v)).map BitVec.toNat = [v.toNat / 256, v.toNat % 256] ∧
    (storedBytes .little (.w16 v)).map BitVec.toNat = [v.toNat % 256, v.toNat / 256]

/-- R31: the value of a flattened tile has its first element in the most significant bit: element `k` of the value of
`L` elements is the `k`-th. -/
def Obligations.TileElementOrder : Prop :=
  ∀ (c : Cfg) (elements : List Bool), elements.length = c.L →
    c.fits (tileValue elements) = true ∧ ∀ k < c.L, some (element c (tileValue elements) k) = elements[k]?

/-! ### Runs and sentinels -/

/-- R23 item 7, the sentinels: from a state that meets the invariants, a step that appends a word of value 0 to `enc`
took a well-formed `REND` on an unlocked block, presented or cut short by a hard reset, and the word is the sentinel of
the mode and the last one appended. -/
def Obligations.OnlyRendAppendsASentinel : Prop :=
  ∀ (s t : State) (ws : List EncWord), s.Inv → step s = .next t → t.enc = s.enc ++ ws →
    ∀ w ∈ ws, w.value = 0 →
      s.err = 0#6 ∧ w = sentinel s.rleMode ∧ ws.getLast? = some w ∧
      ∃ rest, s.inputs = .command (encode (.rend 0#64)) :: rest ∨
        ∃ sent, s.inputs = .hardResetDuring (encode (.rend 0#64)) sent :: rest

/-- R144: a run is a finite list of command words executed one after another from the reset state with `enc` empty. It
never stops, gives one response for each word, and is what the steps of the machine do when the words are presented.
If nothing was pushed no run is open and `enc` holds only sentinels; if something was, the encoder has been used: a run
is open, or `enc` has a word, or an `SRST` has discarded the run. -/
def Obligations.RunsOfCommands : Prop :=
  ∀ (c : Cfg) (words : List CmdWord), c.legal = true →
    ∃ t, runCommands words (State.resetWith c) = .next t ∧ t.rsps.length = words.length ∧
      Host.Core.run Sys2Proof.core words.length
        { State.resetWith c with inputs := words.map Event.command } = .next t ∧
      (anyPush words (State.resetWith c) = false → t.run.active = false ∧ ∀ w ∈ t.enc, w.value = 0) ∧
      (anyPush words (State.resetWith c) = true →
        t.run.active = true ∨ t.enc ≠ [] ∨ encode (.srst 0#64) ∈ words)

/-- R144, when a run is complete: the empty run is; a run stays complete when `RSYM` of symbols that fit its last mode and
then `REND` follow it; a run that ends with a run open or with a non-zero response code is not; and a run whose one pushed
symbol an `SRST` discards is not, though every response is `OK`, since a symbol was pushed and no sentinel follows
(a discarded symbol counts as pushed: log entry 22). -/
def Obligations.CompleteRuns : Prop :=
  ∀ c : Cfg, c.legal = true →
    RunIsComplete c [] ∧
    (∀ (words : List CmdWord) (seq : List (BitVec 11)) (t : State), RunIsComplete c words →
      runCommands words (State.resetWith c) = .next t → (∀ x ∈ seq, x.toNat < 2 ^ t.rleMode.symW) →
        RunIsComplete c (words ++ seq.map (fun x => encode (.rsym 0#48 (x.setWidth 16))) ++ [encode (.rend 0#64)])) ∧
    (∀ (words : List CmdWord) (t : State), runCommands words (State.resetWith c) = .next t →
      t.run.active = true ∨ (∃ r ∈ t.rsps, r.code ≠ .ok) → ¬ RunIsComplete c words) ∧
    ∀ x : BitVec 11,
      ¬ RunIsComplete c [encode (.rsym 0#48 (x.setWidth 16)), encode (.srst 0#64)] ∧
      ∃ t, runCommands [encode (.rsym 0#48 (x.setWidth 16)), encode (.srst 0#64)] (State.resetWith c) = .next t ∧
        (∀ r ∈ t.rsps, r.code = .ok) ∧ t.run.active = false ∧ t.enc = []

/-- R74's loop invariant: after `n` passes of the loop of R73, `n` at most `K`, the working registers are at the best of
the first `n` codewords, the first of equals; and the scan of the tile is `K` passes, so the registers it ends with are
at the best of all. -/
def Obligations.ScanLoopInvariant : Prop :=
  ∀ (c : Cfg) (t : Data) (n : Nat), c.legal = true → n ≤ c.K →
    ScanInv c t n (scanLoop c n (scanStart t)) ∧ ScanInv c t c.K (scanTile c t)

/-- R109: the pixel in row `r`, column `col` of the tile in tile row `ty`, tile column `tx` of a rebuilt frame is that
of the codeword at the tile's index, tiles in row-major block order. That a column to the right of the frame has no
pixel is the model's choice (log entry 23). -/
def Obligations.RebuiltFrame : Prop :=
  ∀ (c : Cfg) (indices : List Nat) (tilesPerRow : Nat),
    (∀ (ty tx r col i : Nat) (w : Data), tx < tilesPerRow → r < c.side → col < c.side →
      indices[ty * tilesPerRow + tx]? = some i → cbRead c i = some w →
        rebuiltPixel c indices tilesPerRow (ty * c.side + r) (tx * c.side + col) =
          some (w.getLsbD (c.L - 1 - (r * c.side + col)))) ∧
    ∀ y x, tilesPerRow * c.side ≤ x → rebuiltPixel c indices tilesPerRow y x = none
end

