-- ==== Sys2Proof/Laws/Quantizer.lean ====
section
/-!
SUPPORT. The Hamming distance, the codebook's views and the scan: bounds, and the loop invariant of
spec/40_tile_quantizer.md R74.
-/

namespace Sys2Proof.Machine

/-! ### The parameters -/

theorem L_cases (c : Cfg) : c.L = 16 ∨ c.L = 64 := by
  cases h : c.tile <;> simp [Cfg.L, Cfg.side, TileSide.pixels, h]

theorem L_le (c : Cfg) : c.L ≤ 64 := by rcases L_cases c with h | h <;> omega

theorem L_eq_mul_B (c : Cfg) : c.L = 8 * c.B := by
  unfold Cfg.B; rcases L_cases c with h | h <;> rw [h]

theorem B_pos (c : Cfg) : 0 < c.B := by have := L_eq_mul_B c; rcases L_cases c with h | h <;> omega

theorem fits_iff (c : Cfg) (v : Data) : c.fits v = true ↔ v.toNat < 2 ^ c.L := by simp [Cfg.fits]

theorem legal_iff (c : Cfg) :
    c.legal = true ↔ 1 ≤ c.K ∧ c.K ≤ 2048 ∧ ∀ v ∈ c.cb, c.fits v = true := by
  simp [Cfg.legal, and_assoc]

/-- Cutting a value to `L` bits makes it fit. -/
theorem fits_setWidth (c : Cfg) (v : Data) : c.fits ((v.setWidth c.L).setWidth 64) = true := by
  rw [fits_iff, BitVec.toNat_setWidth, BitVec.toNat_setWidth]
  exact lt_of_le_of_lt (Nat.mod_le _ _) (Nat.mod_lt _ (by positivity))

/-- An `L`-bit value has no bit at `L` or above (R32). -/
theorem getLsbD_of_fits {c : Cfg} {v : Data} (h : c.fits v = true) {k : Nat} (hk : c.L ≤ k) :
    v.getLsbD k = false := by
  rw [fits_iff] at h
  exact Nat.testBit_lt_two_pow (lt_of_lt_of_le h (Nat.pow_le_pow_right (by omega) hk))

/-- A value without a bit at `L` or above is an `L`-bit value. -/
theorem fits_of_getLsbD {c : Cfg} {v : Data} (h : ∀ k, c.L ≤ k → v.getLsbD k = false) : c.fits v = true := by
  rw [fits_iff]
  exact Nat.lt_pow_two_of_testBit _ h

/-! ### Reads of the codebook -/

/-- There is a codeword at `i` exactly while `i < K` (R33). -/
theorem cbRead_isSome_iff (c : Cfg) (i : Nat) : (∃ w, cbRead c i = some w) ↔ i < c.K := by
  unfold cbRead Cfg.K
  constructor
  · rintro ⟨w, h⟩; exact (List.getElem?_eq_some_iff.mp h).1
  · intro h; exact ⟨_, List.getElem?_eq_getElem h⟩

theorem lt_K_of_cbRead {c : Cfg} {i : Nat} {w : Data} (h : cbRead c i = some w) : i < c.K :=
  (cbRead_isSome_iff c i).mp ⟨w, h⟩

theorem cbRead_eq_none_iff (c : Cfg) (i : Nat) : cbRead c i = none ↔ c.K ≤ i := by simp [cbRead, Cfg.K]

/-- Every codeword of a legal configuration has `L` bits (R3). -/
theorem fits_of_cbRead {c : Cfg} (hc : c.legal = true) {i : Nat} {w : Data} (h : cbRead c i = some w) :
    c.fits w = true :=
  ((legal_iff c).mp hc).2.2 w (List.mem_of_getElem? h)

/-- A byte of the packed codebook is a byte of its codeword (R35). -/
theorem cbReadByte_of_cbRead {c : Cfg} {i j : Nat} {w : Data} (hj : j < c.B) (h : cbRead c i = some w) :
    cbReadByte c (i * c.B + j) = some (codewordByte c w j) := by
  have hdiv : (i * c.B + j) / c.B = i := by
    rw [Nat.add_comm, Nat.add_mul_div_right _ _ (B_pos c), Nat.div_eq_of_lt hj, Nat.zero_add]
  have hmod : (i * c.B + j) % c.B = j := by
    rw [Nat.add_comm, Nat.add_mul_mod_self_right, Nat.mod_eq_of_lt hj]
  simp [cbReadByte, hdiv, hmod, h]

/-- There is a byte at address `a` exactly while `a < K * B` (R35). -/
theorem cbReadByte_eq_none_iff (c : Cfg) (a : Nat) : cbReadByte c a = none ↔ c.K * c.B ≤ a := by
  rw [cbReadByte, Option.map_eq_none_iff, cbRead_eq_none_iff, Nat.le_div_iff_mul_le (B_pos c)]

/-! ### Hamming distance -/

theorem onesBelow_le (v : Data) (n : Nat) : onesBelow v n ≤ n := by
  induction n with
  | zero => exact le_rfl
  | succ n ih => have := Bool.toNat_le (v.getLsbD n); simp only [onesBelow]; omega

/-- Bits that are 0 count nothing. -/
theorem onesBelow_of_zero_above {v : Data} {n m : Nat} (h : ∀ k, n ≤ k → v.getLsbD k = false) (hm : n ≤ m) :
    onesBelow v m = onesBelow v n := by
  induction m with
  | zero => rw [Nat.le_zero.mp hm]
  | succ m ih =>
    rcases Nat.lt_or_eq_of_le hm with h' | h'
    · rw [onesBelow, h m (by omega), ih (by omega)]; rfl
    · rw [h']

theorem onesBelow_eq_zero_iff (v : Data) (n : Nat) : onesBelow v n = 0 ↔ ∀ k < n, v.getLsbD k = false := by
  induction n with
  | zero => simp [onesBelow]
  | succ n ih =>
    rw [onesBelow, Nat.add_eq_zero_iff, ih]
    simp only [Bool.toNat_eq_zero, Nat.lt_succ_iff_lt_or_eq]
    exact ⟨fun ⟨h, hn⟩ k hk => by rcases hk with h' | rfl <;> [exact h k h'; exact hn],
      fun h => ⟨fun k hk => h k (.inl hk), h n (.inr rfl)⟩⟩

theorem onesBelow_eq_self_iff (v : Data) (n : Nat) : onesBelow v n = n ↔ ∀ k < n, v.getLsbD k = true := by
  induction n with
  | zero => simp [onesBelow]
  | succ n ih =>
    have hle := onesBelow_le v n
    rw [onesBelow]
    constructor
    · intro h k hk
      have hb : (v.getLsbD n).toNat ≤ 1 := Bool.toNat_le _
      have hn : v.getLsbD n = true := by
        cases hv : v.getLsbD n with
        | true => rfl
        | false => rw [hv, Bool.toNat_false] at h; omega
      rcases Nat.lt_succ_iff_lt_or_eq.mp hk with h' | rfl
      · exact ih.mp (by omega) k h'
      · exact hn
    · intro h
      rw [ih.mpr fun k hk => h k (by omega), h n (by omega)]; rfl

/-- The distance of two `L`-bit values is the number of differing bits among their `L` bits. -/
theorem hd_eq_onesBelow {c : Cfg} {a b : Data} (ha : c.fits a = true) (hb : c.fits b = true) :
    hd a b = onesBelow (a ^^^ b) c.L :=
  onesBelow_of_zero_above (fun k hk => by simp [getLsbD_of_fits ha hk, getLsbD_of_fits hb hk]) (L_le c)

/-- The distance of two `L`-bit values is at most `L` (R71). -/
theorem hd_le_L {c : Cfg} {a b : Data} (ha : c.fits a = true) (hb : c.fits b = true) : hd a b ≤ c.L := by
  rw [hd_eq_onesBelow ha hb]; exact onesBelow_le _ _

theorem hd_le (a b : Data) : hd a b ≤ 64 := onesBelow_le _ _

theorem toNat_ofNat_hd (a b : Data) : (BitVec.ofNat 7 (hd a b)).toNat = hd a b := by
  have := hd_le a b
  rw [BitVec.toNat_ofNat]; exact Nat.mod_eq_of_lt (by omega)

/-! ### The scan -/

theorem scanInv_start (c : Cfg) (t : Data) : ScanInv c t 0 (scanStart t) :=
  ⟨rfl, rfl, fun _ => ⟨rfl, rfl⟩, fun h => absurd h (by omega), fun _ h => absurd h (by omega),
    fun _ h => absurd h (by omega)⟩

/-- One comparison keeps the invariant (R74). -/
theorem scanInv_compare {c : Cfg} {t : Data} {n : Nat} {r : ScanRegs} {w : Data} (h : ScanInv c t n r)
    (hn : n < 2048) (hw : cbRead c n = some w) : ScanInv c t (n + 1) (scanCompare r w) := by
  have hidx : (r.scanIdx + 1#12).toNat = n + 1 := by
    have h1 : (1#12).toNat = 1 := rfl
    rw [BitVec.toNat_add, h.index, h1]; omega
  have hbest : (r.scanIdx.setWidth 11).toNat = n := by
    rw [BitVec.toNat_setWidth, h.index]; omega
  unfold scanCompare
  rw [h.tile]
  split
  · next hlt =>
    refine ⟨rfl, hidx, by omega, fun _ => ?_, fun j hj w' hw' => ?_, fun j hj w' hw' heq => ?_⟩
    · simp only [hbest]
      exact ⟨by omega, w, hw, (toNat_ofNat_hd t w).symm⟩
    · simp only [toNat_ofNat_hd]
      rcases Nat.lt_succ_iff_lt_or_eq.mp hj with h' | rfl
      · have := h.least j h' w' hw'; omega
      · rw [hw] at hw'; cases hw'; exact le_rfl
    · simp only [toNat_ofNat_hd] at heq
      simp only [hbest]
      rcases Nat.lt_succ_iff_lt_or_eq.mp hj with h' | rfl
      · have := h.least j h' w' hw'; omega
      · exact le_rfl
  · next hge =>
    have hn1 : 1 ≤ n := by
      by_contra h0
      have h127 := (h.start (by omega)).2
      have : r.bestDist.toNat = 127 := by rw [h127]; rfl
      have := hd_le t w
      omega
    refine ⟨rfl, hidx, by omega, fun _ => ?_, fun j hj w' hw' => ?_, fun j hj w' hw' heq => ?_⟩
    · obtain ⟨hlt, hex⟩ := h.found hn1
      exact ⟨by simp only; omega, hex⟩
    · rcases Nat.lt_succ_iff_lt_or_eq.mp hj with h' | rfl
      · exact h.least j h' w' hw'
      · rw [hw] at hw'; cases hw'; simp only; omega
    · rcases Nat.lt_succ_iff_lt_or_eq.mp hj with h' | rfl
      · exact h.first j h' w' hw' heq
      · have := (h.found hn1).1; simp only; omega

/-- The loop keeps the invariant up to `K` (R74). -/
theorem scanInv_loop {c : Cfg} {t : Data} (hK : c.K ≤ 2048) :
    ∀ k n r, n + k = c.K → ScanInv c t n r → ScanInv c t c.K (scanLoop c k r)
  | 0, n, r, hn, h => by rw [← hn]; exact h
  | k + 1, n, r, hn, h => by
    obtain ⟨w, hw⟩ := (cbRead_isSome_iff c n).mpr (by omega)
    rw [scanLoop, h.index, hw]
    exact scanInv_loop hK k (n + 1) _ (by omega) (scanInv_compare h (by omega) hw)

/-- The registers at the end of the scan of a legal configuration (R73, R74). -/
theorem scanInv_scanTile {c : Cfg} (hc : c.legal = true) (t : Data) : ScanInv c t c.K (scanTile c t) :=
  scanInv_loop ((legal_iff c).mp hc).2.1 c.K 0 _ (by omega) (scanInv_start c t)

end Sys2Proof.Machine
end

