-- ==== Sys2Proof/Laws/Codebook.lean ====
section
/-!
SUPPORT. The images of the codebook: what the packed and the raw image hold at a position.
-/

namespace Sys2Proof.Machine

/-- The first `n` bytes of the packed image, read at a position. -/
theorem packedPrefix (c : Cfg) : ∀ n ≤ c.K * c.B,
    ((List.range n).filterMap (cbReadByte c)).length = n ∧
      ∀ a < n, ((List.range n).filterMap (cbReadByte c))[a]? = cbReadByte c a := by
  intro n
  induction n with
  | zero => intro _; exact ⟨rfl, fun a h => absurd h (by omega)⟩
  | succ n ih =>
    intro hn
    obtain ⟨h1, h2⟩ := ih (by omega)
    have hs : cbReadByte c n ≠ none := by rw [Ne, cbReadByte_eq_none_iff]; omega
    obtain ⟨b, hb⟩ := Option.ne_none_iff_exists'.mp hs
    rw [List.range_succ, List.filterMap_append]
    refine ⟨by simp [h1, hb], fun a ha => ?_⟩
    rcases Nat.lt_succ_iff_lt_or_eq.mp ha with h | rfl
    · rw [List.getElem?_append_left (by omega)]; exact h2 a h
    · rw [List.getElem?_append_right (by omega), h1]; simp [hb]

/-- The packed image has a byte for every byte address (R36). -/
theorem length_packedImage (c : Cfg) : (packedImage c).length = c.K * c.B := (packedPrefix c _ le_rfl).1

/-- The packed image at a byte address is what `CbReadByte` answers there (R36). -/
theorem getElem?_packedImage {c : Cfg} {a : Nat} (h : a < c.K * c.B) : (packedImage c)[a]? = cbReadByte c a :=
  (packedPrefix c _ le_rfl).2 a h

/-- A list of equally long pieces, read at a position. -/
theorem getElem?_flatMap_const {α β : Type} (n : Nat) (f : α → List β) (hf : ∀ x, (f x).length = n) :
    ∀ (xs : List α) (i k : Nat) (x : α), xs[i]? = some x → k < n → (xs.flatMap f)[i * n + k]? = (f x)[k]? := by
  intro xs
  induction xs with
  | nil => intro i k x h; simp at h
  | cons y ys ih =>
    intro i k x h hk
    rw [List.flatMap_cons]
    cases i with
    | zero =>
      have : y = x := by simpa using h
      subst this
      rw [List.getElem?_append_left (by rw [hf]; omega)]; simp
    | succ i =>
      rw [List.getElem?_append_right (by rw [hf]; nlinarith), hf,
        show (i + 1) * n + k - n = i * n + k by rw [Nat.succ_mul]; omega]
      exact ih i k x (by simpa using h) hk

/-- The raw image at a position (R36). -/
theorem getElem?_rawImage {c : Cfg} {i k : Nat} {v : Data} (hv : cbRead c i = some v) (hk : k < c.L) :
    (rawImage c)[i * c.L + k]? = some (element c v k) := by
  rw [rawImage, getElem?_flatMap_const c.L _ (by simp) c.cb i k v hv hk]
  simp [hk]

end Sys2Proof.Machine
end

