-- ==== Sys2Proof/Laws/Decode.lean ====
section
/-!
SUPPORT. The decoder and the encoder: the fields of an encoded word, and the opcodes.
-/

namespace Sys2Proof

section Fields
variable {a b c : Nat}

/-- The upper of two fields. -/
theorem extract_high (x : BitVec a) (y : BitVec b) : (x ++ y).extractLsb' b a = x := by
  ext k hk
  simp [BitVec.getLsbD_append, hk]

/-- The lower of two fields. -/
theorem extract_low (x : BitVec a) (y : BitVec b) : (x ++ y).extractLsb' 0 b = y := by
  ext k hk
  simp [BitVec.getLsbD_append, hk]

/-- The middle of three fields. -/
theorem extract_middle (x : BitVec a) (y : BitVec b) (z : BitVec c) : (x ++ y ++ z).extractLsb' c b = y := by
  ext k hk
  simp [BitVec.getLsbD_append, hk]

/-- The top of three fields. -/
theorem extract_top (x : BitVec a) (y : BitVec b) (z : BitVec c) : (x ++ y ++ z).extractLsb' (c + b) a = x := by
  ext k hk
  have h1 : ¬ c + b + k < c := by omega
  have h2 : ¬ c + b + k - c < b := by omega
  have h3 : c + b + k - c - b = k := by omega
  simp [BitVec.getLsbD_append, hk, h1, h2, h3]

/-- Two fields of a word, put together again. -/
theorem append_two (w : BitVec (a + b)) : w.extractLsb' b a ++ w.extractLsb' 0 b = w := by
  ext k hk
  simp only [BitVec.getElem_append, BitVec.getElem_extractLsb']
  split
  · rw [Nat.zero_add, BitVec.getLsbD_eq_getElem]
  · rw [show b + (k - b) = k by omega, BitVec.getLsbD_eq_getElem]

/-- Three fields of a word, put together again. -/
theorem append_three (w : BitVec (a + b + c)) :
    w.extractLsb' (c + b) a ++ w.extractLsb' c b ++ w.extractLsb' 0 c = w := by
  ext k hk
  simp only [BitVec.getElem_append, BitVec.getElem_extractLsb']
  repeat' split
  · rw [Nat.zero_add, BitVec.getLsbD_eq_getElem]
  · rw [show c + (k - c) = k by omega, BitVec.getLsbD_eq_getElem]
  · rw [show c + b + (k - c - b) = k by omega, BitVec.getLsbD_eq_getElem]

end Fields

@[simp] theorem op_encode (i : Instr) : (encode i).op = i.opcode := extract_high i.opcode i.operand

@[simp] theorem arg_encode (i : Instr) : (encode i).arg = i.operand := extract_low i.opcode i.operand

/-- A command word is its opcode above its operand (R51). -/
theorem op_append_arg (cw : CmdWord) : cw.op ++ cw.arg = cw := append_two (a := 8) (b := 64) cw

/-- Format C: the three fields of an operand put together again (R51). -/
theorem append_argC (w : BitVec 64) : argMbzC w ++ argCsr w ++ argVal w = w :=
  append_three (a := 24) (b := 8) (c := 32) w

/-- Format I: the two fields of an operand put together again (R51). -/
theorem append_argI (w : BitVec 64) : argMbzI w ++ argImm w = w := append_two (a := 48) (b := 16) w

section
variable (hi : BitVec 24) (n : BitVec 8) (v : BitVec 32)

@[simp] theorem argMbzC_append : argMbzC (hi ++ n ++ v) = hi := extract_top hi n v

@[simp] theorem argCsr_append : argCsr (hi ++ n ++ v) = n := extract_middle hi n v

@[simp] theorem argVal_append : argVal (hi ++ n ++ v) = v := extract_low (hi ++ n) v

end

@[simp] theorem argMbzI_append (mbz : BitVec 48) (imm : BitVec 16) : argMbzI (mbz ++ imm) = mbz :=
  extract_high mbz imm

@[simp] theorem argImm_append (mbz : BitVec 48) (imm : BitVec 16) : argImm (mbz ++ imm) = imm := extract_low mbz imm

/-- A field of a lower part of a word is a field of the word. -/
theorem extract_of_low {n lo len w : Nat} (x : BitVec w) (h : lo + len ≤ n) :
    (x.extractLsb' 0 n).extractLsb' lo len = x.extractLsb' lo len := by
  ext k hk
  simp [show lo + k < n by omega]

/-! The operand fields as the bits of the command word that the format tables give (R51, R52). -/

theorem argMbzC_arg (cw : CmdWord) : argMbzC cw.arg = cw.extractLsb' 40 24 := extract_of_low cw (by omega)
theorem argCsr_arg (cw : CmdWord) : argCsr cw.arg = cw.extractLsb' 32 8 := extract_of_low cw (by omega)
theorem argVal_arg (cw : CmdWord) : argVal cw.arg = cw.extractLsb' 0 32 := extract_of_low cw (by omega)
theorem argMbzI_arg (cw : CmdWord) : argMbzI cw.arg = cw.extractLsb' 16 48 := extract_of_low cw (by omega)
theorem argImm_arg (cw : CmdWord) : argImm cw.arg = cw.extractLsb' 0 16 := extract_of_low cw (by omega)

theorem opcode_mem (i : Instr) : i.opcode ∈ definedOpcodes := by
  cases i <;> simp [Instr.opcode, definedOpcodes]

/-- The decoder answers a command of the word's own opcode, whose fields are the word's operand (R51, R52). -/
theorem decode_eq_ok {cw : CmdWord} {i : Instr} (h : decode cw = .ok i) : i.opcode = cw.op ∧ i.operand = cw.arg := by
  have hop : ∀ n : Nat, cw.op.toNat = n → cw.op = BitVec.ofNat 8 n := fun n hn => by
    rw [← hn, BitVec.ofNat_toNat, BitVec.setWidth_eq]
  unfold decode at h
  split at h
  all_goals first | (cases h; done) | skip
  all_goals
    next hn =>
    cases h
    exact ⟨(hop _ hn).symm, by simp [Instr.operand, append_argC, append_argI]⟩

/-- A word is refused exactly when its opcode is not one of the nine, and then by its opcode (R55). -/
theorem decode_eq_error {cw : CmdWord} {e : DecodeError} (h : decode cw = .error e) :
    e = .illegalOp cw.op ∧ cw.op ∉ definedOpcodes := by
  unfold decode at h
  split at h
  all_goals first | (cases h; done) | skip
  cases h
  refine ⟨rfl, fun hm => ?_⟩
  simp only [definedOpcodes, List.mem_cons, List.not_mem_nil, or_false] at hm
  rcases hm with hm | hm | hm | hm | hm | hm | hm | hm | hm <;> simp_all

end Sys2Proof
end

