-- ==== Sys2Proof/Laws/Rle.lean ====
section
/-!
SUPPORT. The encoder: the packed word, the cases of `RlePush`, the decoder on one word, and the words of a run.
-/

namespace Sys2Proof.Machine

/-! ### Widths -/

theorem maxCnt_pos (m : RleMode) : 0 < m.maxCnt := by cases m <;> decide

theorem maxCnt_lt (m : RleMode) : m.maxCnt < 2 ^ m.cntW := by cases m <;> decide

theorem maxCnt_lt_128 (m : RleMode) : m.maxCnt < 128 := by cases m <;> decide

theorem toNat_ofNat_le_maxCnt (m : RleMode) {n : Nat} (h : n ≤ m.maxCnt) : (BitVec.ofNat 7 n).toNat = n := by
  have := maxCnt_lt_128 m
  rw [BitVec.toNat_ofNat]
  exact Nat.mod_eq_of_lt (by omega)

/-! ### The packed word -/

@[simp] theorem width_word (m : RleMode) (v : Nat) : (m.word v).width = m.wordW := by cases m <;> rfl

theorem value_word (m : RleMode) {v : Nat} (h : v < 2 ^ m.wordW) : (m.word v).value = v := by
  cases m <;> simp_all [RleMode.word, EncWord.value, RleMode.wordW, RleMode.symW, RleMode.cntW]

theorem count_word (m : RleMode) {v : Nat} (h : v < 2 ^ m.wordW) : (m.word v).count = v % 2 ^ m.cntW := by
  cases m <;> simp_all [RleMode.word, EncWord.count, RleMode.wordW, RleMode.symW, RleMode.cntW]

theorem value_lt (w : EncWord) : w.value < 2 ^ w.width := by
  cases w with
  | w16 v => exact v.isLt
  | w8 v => exact v.isLt

@[simp] theorem value_sentinel (m : RleMode) : (sentinel m).value = 0 := by cases m <;> rfl

/-- The two fields of a packed word do not overlap (R94): `|` and `+` agree. -/
theorem shift_or_eq (m : RleMode) (sym : BitVec 11) {cnt : BitVec 7} (hc : cnt.toNat ≤ m.maxCnt) :
    sym.toNat <<< m.cntW ||| cnt.toNat = sym.toNat * 2 ^ m.cntW + cnt.toNat := by
  rw [← Nat.shiftLeft_add_eq_or_of_lt (by have := maxCnt_lt m; omega), Nat.shiftLeft_eq]

theorem shift_or_lt (m : RleMode) {sym : BitVec 11} {cnt : BitVec 7} (hs : sym.toNat < 2 ^ m.symW)
    (hc : cnt.toNat ≤ m.maxCnt) : sym.toNat * 2 ^ m.cntW + cnt.toNat < 2 ^ m.wordW := by
  have := maxCnt_lt m
  cases m <;> simp_all [RleMode.wordW, RleMode.symW, RleMode.cntW] <;> omega

theorem value_pack (m : RleMode) {sym : BitVec 11} {cnt : BitVec 7} (hs : sym.toNat < 2 ^ m.symW)
    (hc : cnt.toNat ≤ m.maxCnt) : (pack m sym cnt).value = sym.toNat * 2 ^ m.cntW + cnt.toNat := by
  unfold pack
  rw [shift_or_eq m sym hc, value_word m (shift_or_lt m hs hc)]

@[simp] theorem width_pack (m : RleMode) (sym : BitVec 11) (cnt : BitVec 7) : (pack m sym cnt).width = m.wordW :=
  width_word m _

@[simp] theorem width_sentinel (m : RleMode) : (sentinel m).width = m.wordW := width_word m _

/-- The count field of a packed word is its count, whatever the symbol (R86). -/
theorem count_pack (m : RleMode) (sym : BitVec 11) {cnt : BitVec 7} (hc : cnt.toNat ≤ m.maxCnt) :
    (pack m sym cnt).count = cnt.toNat := by
  have hlt := maxCnt_lt m
  have hs := sym.isLt
  unfold pack
  rw [shift_or_eq m sym hc]
  cases m <;> simp_all [RleMode.word, EncWord.count, RleMode.cntW] <;> omega

theorem value_pack_ne_zero (m : RleMode) {sym : BitVec 11} {cnt : BitVec 7} (hs : sym.toNat < 2 ^ m.symW)
    (h1 : 1 ≤ cnt.toNat) (hc : cnt.toNat ≤ m.maxCnt) : (pack m sym cnt).value ≠ 0 := by
  rw [value_pack m hs hc]; omega

/-! ### `RlePush` -/

section
variable {m : RleMode} {r : Run} {x : BitVec 11}

/-- The first symbol of a sequence (R88). -/
theorem runPush_first (h : r.active = false) : runPush m r x = (⟨true, x, 1#7⟩, []) := by simp [runPush, h]

/-- The run continues (R88). -/
theorem runPush_continue (h : r.active = true) (hx : x = r.sym) (hc : r.cnt.toNat < m.maxCnt) :
    runPush m r x = (⟨true, r.sym, r.cnt + 1#7⟩, []) := by simp [runPush, h, hx, hc]

/-- The count field would overflow (R88). -/
theorem runPush_overflow (h : r.active = true) (hx : x = r.sym) (hc : r.cnt.toNat = m.maxCnt) :
    runPush m r x = (⟨true, r.sym, 1#7⟩, [pack m r.sym (BitVec.ofNat 7 m.maxCnt)]) := by
  simp [runPush, h, hx, hc]

/-- The symbol changes (R88). -/
theorem runPush_change (h : r.active = true) (hx : x ≠ r.sym) :
    runPush m r x = (⟨true, x, 1#7⟩, [pack m r.sym r.cnt]) := by simp [runPush, h, hx]

/-- After a push a run is open. -/
@[simp] theorem runPush_active : (runPush m r x).1.active = true := by
  unfold runPush; repeat' split
  all_goals rfl

/-- After a push the open run is of the symbol pushed. -/
@[simp] theorem runPush_sym : (runPush m r x).1.sym = x := by
  unfold runPush; repeat' split
  all_goals simp_all

/-- `RlePush` emits at most one word (R88). -/
theorem length_runPush_le : (runPush m r x).2.length ≤ 1 := by
  unfold runPush; repeat' split
  all_goals simp

/-- A run that is open has a legal count and a legal symbol (R23 item 2). -/
def Run.Legal (m : RleMode) (r : Run) : Prop :=
  r.active = true → 1 ≤ r.cnt.toNat ∧ r.cnt.toNat ≤ m.maxCnt ∧ r.sym.toNat < 2 ^ m.symW

theorem cnt_succ (hc : r.cnt.toNat < m.maxCnt) : (r.cnt + 1#7).toNat = r.cnt.toNat + 1 := by
  have := maxCnt_lt_128 m
  have h1 : (1#7).toNat = 1 := rfl
  rw [BitVec.toNat_add, h1]
  omega

/-- Pushing a symbol that fits keeps the run legal (R23 item 2, R94). -/
theorem runPush_legal (h : r.Legal m) (hx : x.toNat < 2 ^ m.symW) : (runPush m r x).1.Legal m := by
  have h1 := maxCnt_pos m
  have one : (1#7).toNat = 1 := rfl
  intro _
  unfold runPush
  split
  · exact ⟨by rw [one], by rw [one]; omega, hx⟩
  · have hr := h (by simp_all)
    split
    · next hc => rw [cnt_succ hc.2]; exact ⟨by omega, by omega, hr.2.2⟩
    · split
      · exact ⟨by rw [one], by rw [one]; omega, hr.2.2⟩
      · exact ⟨by rw [one], by rw [one]; omega, hx⟩

/-- Every word `RlePush` emits has a count of at least 1 (R95). -/
theorem count_of_mem_runPush (h : r.Legal m) {w : EncWord} (hw : w ∈ (runPush m r x).2) : 1 ≤ w.count := by
  have h1 := maxCnt_pos m
  unfold runPush at hw
  repeat' split at hw
  all_goals simp at hw
  · subst hw
    rw [count_pack _ _ (by rw [toNat_ofNat_le_maxCnt m le_rfl])]
    rw [toNat_ofNat_le_maxCnt m le_rfl]; exact h1
  · have := h (by simp_all)
    subst hw
    rw [count_pack _ _ this.2.1]; exact this.1

/-- Every word `RleEnd` emits is the sentinel or has a count of at least 1 (R89, R95). -/
theorem count_of_mem_runEnd (h : r.Legal m) {w : EncWord} (hw : w ∈ runEnd m r) : w.value = 0 ∨ 1 ≤ w.count := by
  unfold runEnd at hw
  split at hw
  · have := h (by assumption)
    simp at hw
    rcases hw with rfl | rfl
    · right; rw [count_pack _ _ this.2.1]; exact this.1
    · left; simp
  · simp at hw; subst hw; left; simp

end

/-! ### Sequences -/

@[simp] theorem pushAll_nil (m : RleMode) (r : Run) : pushAll m r [] = (r, []) := rfl

theorem pushAll_cons (m : RleMode) (r : Run) (x : BitVec 11) (xs : List (BitVec 11)) :
    pushAll m r (x :: xs) =
      ((pushAll m (runPush m r x).1 xs).1, (runPush m r x).2 ++ (pushAll m (runPush m r x).1 xs).2) := rfl

/-- The words of a run of `n + MAXCNT` symbols: one full word more (R92). -/
theorem runWords_add_maxCnt (m : RleMode) (x : BitVec 11) (n : Nat) :
    runWords m x (n + m.maxCnt) = pack m x (BitVec.ofNat 7 m.maxCnt) :: runWords m x n := by
  simp [runWords, Nat.add_div_right _ (maxCnt_pos m), List.replicate_succ]

/-- A run of at most `MAXCNT` symbols is one word (R92). -/
theorem runWords_of_le (m : RleMode) (x : BitVec 11) {n : Nat} (h1 : 1 ≤ n) (hn : n ≤ m.maxCnt) :
    runWords m x n = [pack m x (BitVec.ofNat 7 n)] := by
  rcases Nat.lt_or_eq_of_le hn with h | h
  · simp [runWords, Nat.div_eq_of_lt h, Nat.mod_eq_of_lt h, show n ≠ 0 by omega]
  · subst h
    simp [runWords, Nat.div_self (maxCnt_pos m)]

/-- The first maximal run of a sequence is of its first symbol. -/
theorem maximalRuns_cons (x : BitVec 11) (xs : List (BitVec 11)) :
    ∃ n rest, 1 ≤ n ∧ maximalRuns (x :: xs) = (x, n) :: rest := by
  unfold maximalRuns
  split
  · exact ⟨1, [], le_rfl, rfl⟩
  · split
    · next y n rest _ h => exact ⟨n + 1, rest, by omega, by rw [h]⟩
    · exact ⟨1, _, le_rfl, rfl⟩

/-- The decoder on the word of a run: its symbols, and then the rest (R96). -/
theorem rleDecode_pack (m : RleMode) {x : BitVec 11} {cnt : BitVec 7} (hs : x.toNat < 2 ^ m.symW)
    (h1 : 1 ≤ cnt.toNat) (hc : cnt.toNat ≤ m.maxCnt) (ws : List EncWord) :
    rleDecode m (pack m x cnt :: ws) = (rleDecode m ws).map (List.replicate cnt.toNat x ++ ·) := by
  have hlt := maxCnt_lt m
  have hv := value_pack m hs hc
  have hne := value_pack_ne_zero m hs h1 hc
  have hcount : (pack m x cnt).value % 2 ^ m.cntW = cnt.toNat := by
    rw [hv, Nat.add_comm, Nat.add_mul_mod_self_right, Nat.mod_eq_of_lt (by omega)]
  have hsym : (pack m x cnt).value / 2 ^ m.cntW = x.toNat := by
    rw [hv, Nat.add_comm, Nat.add_mul_div_right _ _ (by positivity), Nat.div_eq_of_lt (by omega), Nat.zero_add]
  rw [rleDecode, if_neg hne, hcount, hsym, Nat.mod_eq_of_lt hs, BitVec.ofNat_toNat, BitVec.setWidth_eq]

/-- The decoder stops at the sentinel (R96). -/
@[simp] theorem rleDecode_sentinel (m : RleMode) (ws : List EncWord) : rleDecode m (sentinel m :: ws) = some [] := by
  simp [rleDecode]

end Sys2Proof.Machine
end

