-- ==== Sys2Proof/Laws/State.lean ====
section
/-!
SUPPORT. One lemma per field of `State` and per shared operation that updates it: what the field is afterwards.
-/

namespace Sys2Proof.Machine

variable (s : State)

/-! ### `respond` -/

@[simp] theorem respond_cfg (code : Code) (data : Data) : (respond code data s).cfg = s.cfg := rfl
@[simp] theorem respond_rleMode (code : Code) (data : Data) : (respond code data s).rleMode = s.rleMode := rfl
@[simp] theorem respond_chain (code : Code) (data : Data) : (respond code data s).chain = s.chain := rfl
@[simp] theorem respond_err (code : Code) (data : Data) : (respond code data s).err = s.err := rfl
@[simp] theorem respond_run (code : Code) (data : Data) : (respond code data s).run = s.run := rfl
@[simp] theorem respond_qres (code : Code) (data : Data) : (respond code data s).qres = s.qres := rfl
@[simp] theorem respond_scan (code : Code) (data : Data) : (respond code data s).scan = s.scan := rfl
@[simp] theorem respond_enc (code : Code) (data : Data) : (respond code data s).enc = s.enc := rfl
@[simp] theorem respond_rsps (code : Code) (data : Data) : (respond code data s).rsps = s.rsps ++ [⟨code, data⟩] := rfl
@[simp] theorem respond_inputs (code : Code) (data : Data) : (respond code data s).inputs = s.inputs := rfl
@[simp] theorem respond_resetSeen (code : Code) (data : Data) : (respond code data s).resetSeen = s.resetSeen := rfl
@[simp] theorem respond_draws (code : Code) (data : Data) : (respond code data s).draws = s.draws := rfl

/-! ### `raise` -/

@[simp] theorem raise_cfg (e : ErrorKind) : (raise e s).cfg = s.cfg := rfl
@[simp] theorem raise_rleMode (e : ErrorKind) : (raise e s).rleMode = s.rleMode := rfl
@[simp] theorem raise_chain (e : ErrorKind) : (raise e s).chain = s.chain := rfl
@[simp] theorem raise_err (e : ErrorKind) : (raise e s).err = s.err ||| e.bit := rfl
@[simp] theorem raise_run (e : ErrorKind) : (raise e s).run = s.run := rfl
@[simp] theorem raise_qres (e : ErrorKind) : (raise e s).qres = s.qres := rfl
@[simp] theorem raise_scan (e : ErrorKind) : (raise e s).scan = s.scan := rfl
@[simp] theorem raise_enc (e : ErrorKind) : (raise e s).enc = s.enc := rfl
@[simp] theorem raise_rsps (e : ErrorKind) : (raise e s).rsps = s.rsps ++ [⟨.error e, 0#64⟩] := rfl
@[simp] theorem raise_inputs (e : ErrorKind) : (raise e s).inputs = s.inputs := rfl
@[simp] theorem raise_resetSeen (e : ErrorKind) : (raise e s).resetSeen = s.resetSeen := rfl
@[simp] theorem raise_draws (e : ErrorKind) : (raise e s).draws = s.draws := rfl

/-! ### `answerLocked` -/

@[simp] theorem answerLocked_cfg : (answerLocked s).cfg = s.cfg := rfl
@[simp] theorem answerLocked_rleMode : (answerLocked s).rleMode = s.rleMode := rfl
@[simp] theorem answerLocked_chain : (answerLocked s).chain = s.chain := rfl
@[simp] theorem answerLocked_err : (answerLocked s).err = s.err := rfl
@[simp] theorem answerLocked_run : (answerLocked s).run = s.run := rfl
@[simp] theorem answerLocked_qres : (answerLocked s).qres = s.qres := rfl
@[simp] theorem answerLocked_scan : (answerLocked s).scan = s.scan := rfl
@[simp] theorem answerLocked_enc : (answerLocked s).enc = s.enc := rfl
@[simp] theorem answerLocked_rsps : (answerLocked s).rsps = s.rsps ++ [⟨.locked, 0#64⟩] := rfl
@[simp] theorem answerLocked_inputs : (answerLocked s).inputs = s.inputs := rfl
@[simp] theorem answerLocked_resetSeen : (answerLocked s).resetSeen = s.resetSeen := rfl
@[simp] theorem answerLocked_draws : (answerLocked s).draws = s.draws := rfl

/-! ### `emit` -/

@[simp] theorem emit_cfg (ws : List EncWord) : (emit ws s).cfg = s.cfg := rfl
@[simp] theorem emit_rleMode (ws : List EncWord) : (emit ws s).rleMode = s.rleMode := rfl
@[simp] theorem emit_chain (ws : List EncWord) : (emit ws s).chain = s.chain := rfl
@[simp] theorem emit_err (ws : List EncWord) : (emit ws s).err = s.err := rfl
@[simp] theorem emit_run (ws : List EncWord) : (emit ws s).run = s.run := rfl
@[simp] theorem emit_qres (ws : List EncWord) : (emit ws s).qres = s.qres := rfl
@[simp] theorem emit_scan (ws : List EncWord) : (emit ws s).scan = s.scan := rfl
@[simp] theorem emit_enc (ws : List EncWord) : (emit ws s).enc = s.enc ++ ws := rfl
@[simp] theorem emit_rsps (ws : List EncWord) : (emit ws s).rsps = s.rsps := rfl
@[simp] theorem emit_inputs (ws : List EncWord) : (emit ws s).inputs = s.inputs := rfl
@[simp] theorem emit_resetSeen (ws : List EncWord) : (emit ws s).resetSeen = s.resetSeen := rfl
@[simp] theorem emit_draws (ws : List EncWord) : (emit ws s).draws = s.draws := rfl

/-! ### `resetFields` -/

@[simp] theorem resetFields_cfg : (resetFields s).cfg = s.cfg := rfl
@[simp] theorem resetFields_rleMode : (resetFields s).rleMode = .dict := rfl
@[simp] theorem resetFields_chain : (resetFields s).chain = false := rfl
@[simp] theorem resetFields_err : (resetFields s).err = 0#6 := rfl
@[simp] theorem resetFields_run : (resetFields s).run = Run.idle := rfl
@[simp] theorem resetFields_qres : (resetFields s).qres = QRes.none := rfl
@[simp] theorem resetFields_scan : (resetFields s).scan = freeScan s.cfg s.draws := rfl
@[simp] theorem resetFields_enc : (resetFields s).enc = s.enc := rfl
@[simp] theorem resetFields_rsps : (resetFields s).rsps = s.rsps := rfl
@[simp] theorem resetFields_inputs : (resetFields s).inputs = s.inputs := rfl
@[simp] theorem resetFields_resetSeen : (resetFields s).resetSeen = s.resetSeen := rfl
@[simp] theorem resetFields_draws : (resetFields s).draws = s.draws + 1 := rfl

/-! ### `hardReset` -/

@[simp] theorem hardReset_cfg : (hardReset s).cfg = s.cfg := rfl
@[simp] theorem hardReset_rleMode : (hardReset s).rleMode = .dict := rfl
@[simp] theorem hardReset_chain : (hardReset s).chain = false := rfl
@[simp] theorem hardReset_err : (hardReset s).err = 0#6 := rfl
@[simp] theorem hardReset_run : (hardReset s).run = Run.idle := rfl
@[simp] theorem hardReset_qres : (hardReset s).qres = QRes.none := rfl
@[simp] theorem hardReset_scan : (hardReset s).scan = freeScan s.cfg s.draws := rfl
@[simp] theorem hardReset_enc : (hardReset s).enc = s.enc := rfl
@[simp] theorem hardReset_rsps : (hardReset s).rsps = s.rsps := rfl
@[simp] theorem hardReset_inputs : (hardReset s).inputs = s.inputs := rfl
@[simp] theorem hardReset_resetSeen : (hardReset s).resetSeen = true := rfl
@[simp] theorem hardReset_draws : (hardReset s).draws = s.draws + 1 := rfl

/-! ### `rlePush` -/

@[simp] theorem rlePush_cfg (x : BitVec 11) : (rlePush x s).cfg = s.cfg := rfl
@[simp] theorem rlePush_rleMode (x : BitVec 11) : (rlePush x s).rleMode = s.rleMode := rfl
@[simp] theorem rlePush_chain (x : BitVec 11) : (rlePush x s).chain = s.chain := rfl
@[simp] theorem rlePush_err (x : BitVec 11) : (rlePush x s).err = s.err := rfl
@[simp] theorem rlePush_run (x : BitVec 11) : (rlePush x s).run = (runPush s.rleMode s.run x).1 := rfl
@[simp] theorem rlePush_qres (x : BitVec 11) : (rlePush x s).qres = s.qres := rfl
@[simp] theorem rlePush_scan (x : BitVec 11) : (rlePush x s).scan = s.scan := rfl
@[simp] theorem rlePush_enc (x : BitVec 11) : (rlePush x s).enc = s.enc ++ (runPush s.rleMode s.run x).2 := rfl
@[simp] theorem rlePush_rsps (x : BitVec 11) : (rlePush x s).rsps = s.rsps := rfl
@[simp] theorem rlePush_inputs (x : BitVec 11) : (rlePush x s).inputs = s.inputs := rfl
@[simp] theorem rlePush_resetSeen (x : BitVec 11) : (rlePush x s).resetSeen = s.resetSeen := rfl
@[simp] theorem rlePush_draws (x : BitVec 11) : (rlePush x s).draws = s.draws := rfl

/-! ### `rleEnd` -/

@[simp] theorem rleEnd_cfg : (rleEnd s).cfg = s.cfg := rfl
@[simp] theorem rleEnd_rleMode : (rleEnd s).rleMode = s.rleMode := rfl
@[simp] theorem rleEnd_chain : (rleEnd s).chain = s.chain := rfl
@[simp] theorem rleEnd_err : (rleEnd s).err = s.err := rfl
@[simp] theorem rleEnd_run : (rleEnd s).run = Run.idle := rfl
@[simp] theorem rleEnd_qres : (rleEnd s).qres = s.qres := rfl
@[simp] theorem rleEnd_scan : (rleEnd s).scan = s.scan := rfl
@[simp] theorem rleEnd_enc : (rleEnd s).enc = s.enc ++ runEnd s.rleMode s.run := rfl
@[simp] theorem rleEnd_rsps : (rleEnd s).rsps = s.rsps := rfl
@[simp] theorem rleEnd_inputs : (rleEnd s).inputs = s.inputs := rfl
@[simp] theorem rleEnd_resetSeen : (rleEnd s).resetSeen = s.resetSeen := rfl
@[simp] theorem rleEnd_draws : (rleEnd s).draws = s.draws := rfl

/-! ### `quantizeInto` -/

@[simp] theorem quantizeInto_cfg (t : Data) : (quantizeInto t s).cfg = s.cfg := rfl
@[simp] theorem quantizeInto_rleMode (t : Data) : (quantizeInto t s).rleMode = s.rleMode := rfl
@[simp] theorem quantizeInto_chain (t : Data) : (quantizeInto t s).chain = s.chain := rfl
@[simp] theorem quantizeInto_err (t : Data) : (quantizeInto t s).err = s.err := rfl
@[simp] theorem quantizeInto_run (t : Data) : (quantizeInto t s).run = s.run := rfl
@[simp] theorem quantizeInto_qres (t : Data) : (quantizeInto t s).qres = ⟨true, (scanTile s.cfg t).bestIdx, (scanTile s.cfg t).bestDist⟩ := rfl
@[simp] theorem quantizeInto_scan (t : Data) : (quantizeInto t s).scan = scanTile s.cfg t := rfl
@[simp] theorem quantizeInto_enc (t : Data) : (quantizeInto t s).enc = s.enc := rfl
@[simp] theorem quantizeInto_rsps (t : Data) : (quantizeInto t s).rsps = s.rsps := rfl
@[simp] theorem quantizeInto_inputs (t : Data) : (quantizeInto t s).inputs = s.inputs := rfl
@[simp] theorem quantizeInto_resetSeen (t : Data) : (quantizeInto t s).resetSeen = s.resetSeen := rfl
@[simp] theorem quantizeInto_draws (t : Data) : (quantizeInto t s).draws = s.draws := rfl

/-! ### `present` -/

@[simp] theorem present_cfg (cw : CmdWord) : (present cw s).cfg = s.cfg := rfl
@[simp] theorem present_rleMode (cw : CmdWord) : (present cw s).rleMode = s.rleMode := rfl
@[simp] theorem present_chain (cw : CmdWord) : (present cw s).chain = s.chain := rfl
@[simp] theorem present_err (cw : CmdWord) : (present cw s).err = s.err := rfl
@[simp] theorem present_run (cw : CmdWord) : (present cw s).run = s.run := rfl
@[simp] theorem present_qres (cw : CmdWord) : (present cw s).qres = s.qres := rfl
@[simp] theorem present_scan (cw : CmdWord) : (present cw s).scan = s.scan := rfl
@[simp] theorem present_enc (cw : CmdWord) : (present cw s).enc = s.enc := rfl
@[simp] theorem present_rsps (cw : CmdWord) : (present cw s).rsps = s.rsps := rfl
@[simp] theorem present_inputs (cw : CmdWord) : (present cw s).inputs = .command cw :: s.inputs := rfl
@[simp] theorem present_resetSeen (cw : CmdWord) : (present cw s).resetSeen = s.resetSeen := rfl
@[simp] theorem present_draws (cw : CmdWord) : (present cw s).draws = s.draws := rfl

/-! ### `chainPush` -/

@[simp] theorem chainPush_of_unchained (h : s.chain = false) : chainPush s = s := by simp [chainPush, h]

@[simp] theorem chainPush_of_chained (h : s.chain = true) : chainPush s = rlePush s.qres.idx s := by
  simp [chainPush, h]

@[simp] theorem chainPush_cfg : (chainPush s).cfg = s.cfg := by unfold chainPush; split <;> rfl
@[simp] theorem chainPush_rleMode : (chainPush s).rleMode = s.rleMode := by unfold chainPush; split <;> rfl
@[simp] theorem chainPush_chain : (chainPush s).chain = s.chain := by unfold chainPush; split <;> rfl
@[simp] theorem chainPush_err : (chainPush s).err = s.err := by unfold chainPush; split <;> rfl
@[simp] theorem chainPush_qres : (chainPush s).qres = s.qres := by unfold chainPush; split <;> rfl
@[simp] theorem chainPush_scan : (chainPush s).scan = s.scan := by unfold chainPush; split <;> rfl
@[simp] theorem chainPush_rsps : (chainPush s).rsps = s.rsps := by unfold chainPush; split <;> rfl
@[simp] theorem chainPush_inputs : (chainPush s).inputs = s.inputs := by unfold chainPush; split <;> rfl
@[simp] theorem chainPush_resetSeen : (chainPush s).resetSeen = s.resetSeen := by unfold chainPush; split <;> rfl
@[simp] theorem chainPush_draws : (chainPush s).draws = s.draws := by unfold chainPush; split <;> rfl

/-- A state is its fields: two states that agree on each are equal. -/
theorem State.ext_fields {s t : State} (h1 : s.cfg = t.cfg) (h2 : s.rleMode = t.rleMode) (h3 : s.chain = t.chain)
    (h4 : s.err = t.err) (h5 : s.run = t.run) (h6 : s.qres = t.qres) (h7 : s.scan = t.scan) (h8 : s.enc = t.enc)
    (h9 : s.rsps = t.rsps) (h10 : s.inputs = t.inputs) (h11 : s.resetSeen = t.resetSeen) (h12 : s.draws = t.draws) :
    s = t := by
  cases s; cases t; simp_all

end Sys2Proof.Machine
end

