-- ==== Sys2Proof/Laws/Exec.lean ====
section
/-!
SUPPORT. What a command can do, said once: it is answered `LOCKED`, it raises one error, or it has its effect and
answers `OK` (`exec_cases`, `runCommand_cases`). Proofs about all commands cite these and do not unfold `exec`.
-/

namespace Sys2Proof

/-- The commands the lock does not stop: `SRST` and `RDCSR` (R53 step 1). -/
def Instr.exempt : Instr → Bool
  | .srst _ => true
  | .rdcsr _ _ _ => true
  | .nop _ => false
  | .wrcsr _ _ _ => false
  | .qtile _ => false
  | .lookup _ _ => false
  | .lookupb _ _ => false
  | .rsym _ _ => false
  | .rend _ => false

end Sys2Proof

namespace Sys2Proof.Machine

/-! ### The dispatch -/

section
variable {s : State} {ok : Bool} {body : State → State}

theorem locked_iff : s.locked = true ↔ s.err ≠ 0#6 := by simp [State.locked]

theorem guarded_of_locked (h : s.err ≠ 0#6) : guarded ok body s = answerLocked s := by
  rw [guarded, if_pos (locked_iff.mpr h)]

theorem guarded_of_unlocked (h : s.err = 0#6) : guarded ok body s = checked ok body s := by
  simp [guarded, State.locked, h]

@[simp] theorem checked_true : checked true body s = body s := rfl

@[simp] theorem checked_false : checked false body s = raise .badOperand s := rfl

theorem undefinedOp_of_locked (h : s.err ≠ 0#6) : undefinedOp s = answerLocked s := by
  rw [undefinedOp, if_pos (locked_iff.mpr h)]

theorem undefinedOp_of_unlocked (h : s.err = 0#6) : undefinedOp s = raise .illegalOp s := by
  simp [undefinedOp, State.locked, h]

end

/-! ### The own rule of a command -/

/-- The command's own rule: step 4 of the dispatch (R53). -/
def ownRule : Instr → State → State
  | .nop _, s => respond .ok 0#64 s
  | .srst _, s => respond .ok 0#64 (resetFields s)
  | .rdcsr _ csr _, s => rdcsrBody csr s
  | .wrcsr _ csr val, s => wrcsrBody csr val s
  | .qtile arg, s => qtileBody arg s
  | .lookup _ imm, s => lookupBody imm s
  | .lookupb _ imm, s => lookupbBody imm s
  | .rsym _ imm, s => rsymBody imm s
  | .rend _, s => respond .ok 0#64 (rleEnd s)

/-- Every command is its own rule behind the two checks of the dispatch (R53). -/
theorem exec_eq (i : Instr) (s : State) :
    exec i s = .next (if i.exempt then checked (i.wellFormed s.cfg) (ownRule i) s
      else guarded (i.wellFormed s.cfg) (ownRule i) s) := by
  cases i <;> rfl

/-- The effect of a command that answers `OK`, before it answers. -/
def effect : Instr → State → State
  | .nop _, s => s
  | .srst _, s => resetFields s
  | .rdcsr _ _ _, s => s
  | .wrcsr _ _ val, s => { s with rleMode := RleMode.ofBit (val.getLsbD 0), chain := val.getLsbD 1 }
  | .qtile arg, s => chainPush (quantizeInto arg s)
  | .lookup _ _, s => s
  | .lookupb _ _, s => s
  | .rsym _ imm, s => rlePush (imm.setWidth 11) s
  | .rend _, s => rleEnd s

/-- What the command's own checks have established when it answers `OK`. -/
def accepted : Instr → State → Prop
  | .nop _, _ => True
  | .srst _, _ => True
  | .rdcsr _ csr _, s => ∃ v, readCsr s csr = some v
  | .wrcsr _ csr val, s => csr = 0#8 ∧ ctrlLegal val = true ∧ s.run.active = false
  | .qtile _, _ => True
  | .lookup _ imm, s => ∃ v, cbRead s.cfg imm.toNat = some v
  | .lookupb _ imm, s => ∃ b, cbReadByte s.cfg imm.toNat = some b
  | .rsym _ imm, s => s.rleMode.symFits imm.toNat = true
  | .rend _, _ => True

/-- The own rule of a command either raises one error or has the command's effect and answers `OK`. -/
theorem ownRule_cases (i : Instr) (s : State) :
    (∃ e, ownRule i s = raise e s) ∨ (accepted i s ∧ ∃ d, ownRule i s = respond .ok d (effect i s)) := by
  cases i with
  | nop _ => exact .inr ⟨trivial, _, rfl⟩
  | srst _ => exact .inr ⟨trivial, _, rfl⟩
  | rdcsr _ csr _ =>
    simp only [ownRule, rdcsrBody]
    split
    · next v h => exact .inr ⟨⟨v, h⟩, _, rfl⟩
    · exact .inl ⟨_, rfl⟩
  | wrcsr _ csr val =>
    simp only [ownRule, wrcsrBody]
    split
    · exact .inl ⟨_, rfl⟩
    · split
      · exact .inl ⟨_, rfl⟩
      · split
        · exact .inl ⟨_, rfl⟩
        · exact .inr ⟨⟨by simp_all, by simp_all, by simp_all⟩, _, rfl⟩
  | qtile _ => exact .inr ⟨trivial, _, rfl⟩
  | lookup _ imm =>
    simp only [ownRule, lookupBody]
    split
    · next v h => exact .inr ⟨⟨v, h⟩, _, rfl⟩
    · exact .inl ⟨_, rfl⟩
  | lookupb _ imm =>
    simp only [ownRule, lookupbBody]
    split
    · next b h => exact .inr ⟨⟨b, h⟩, _, rfl⟩
    · exact .inl ⟨_, rfl⟩
  | rsym _ imm =>
    simp only [ownRule, rsymBody]
    split
    · next h => exact .inr ⟨h, _, rfl⟩
    · exact .inl ⟨_, rfl⟩
  | rend _ => exact .inr ⟨trivial, _, rfl⟩

/-! ### What a command can do -/

/-- Every command answers a next state. -/
theorem exec_next (i : Instr) (s : State) : ∃ t, exec i s = .next t := ⟨_, exec_eq i s⟩

/-- What a command can do (R53): three cases. -/
theorem exec_cases {i : Instr} {s t : State} (h : exec i s = .next t) :
    (s.err ≠ 0#6 ∧ i.exempt = false ∧ t = answerLocked s) ∨
    ((s.err = 0#6 ∨ i.exempt = true) ∧ ∃ e, t = raise e s) ∨
    ((s.err = 0#6 ∨ i.exempt = true) ∧ i.wellFormed s.cfg = true ∧ accepted i s ∧
      ∃ d, t = respond .ok d (effect i s)) := by
  rw [exec_eq] at h
  injection h with h
  have key : ∀ u, u = checked (i.wellFormed s.cfg) (ownRule i) s → (s.err = 0#6 ∨ i.exempt = true) →
      ((s.err = 0#6 ∨ i.exempt = true) ∧ ∃ e, u = raise e s) ∨
      ((s.err = 0#6 ∨ i.exempt = true) ∧ i.wellFormed s.cfg = true ∧ accepted i s ∧
        ∃ d, u = respond .ok d (effect i s)) := by
    intro u hu hs
    cases hw : i.wellFormed s.cfg with
    | false => rw [hw] at hu; exact .inl ⟨hs, _, hu⟩
    | true =>
      rw [hw, checked_true] at hu
      rcases ownRule_cases i s with ⟨e, he⟩ | ⟨ha, d, hd⟩
      · exact .inl ⟨hs, e, hu.trans he⟩
      · exact .inr ⟨hs, rfl, ha, d, hu.trans hd⟩
  cases he : i.exempt with
  | true =>
    rw [he] at h key
    exact .inr (key t h.symm (.inr rfl))
  | false =>
    rw [he] at h key
    by_cases hl : s.err = 0#6
    · rw [if_neg (by simp), guarded_of_unlocked hl] at h
      exact .inr (key t h.symm (.inl hl))
    · rw [if_neg (by simp), guarded_of_locked hl] at h
      exact .inl ⟨hl, rfl, h.symm⟩

/-- A command that passes the dispatch runs its own rule (R53 step 4). -/
theorem exec_of_passed {i : Instr} {s : State} (hs : s.err = 0#6 ∨ i.exempt = true)
    (hw : i.wellFormed s.cfg = true) : exec i s = .next (ownRule i s) := by
  rw [exec_eq, hw]
  rcases hs with h | h
  · rw [guarded_of_unlocked h]; simp
  · simp [h]

/-- A "must be zero" bit that is 1 (R53 step 3). -/
theorem exec_of_illFormed {i : Instr} {s : State} (hs : s.err = 0#6 ∨ i.exempt = true)
    (hw : i.wellFormed s.cfg = false) : exec i s = .next (raise .badOperand s) := by
  rw [exec_eq, hw]
  rcases hs with h | h
  · rw [guarded_of_unlocked h]; simp
  · simp [h]

/-- A locked block (R53 step 1). -/
theorem exec_of_locked {i : Instr} {s : State} (hs : s.err ≠ 0#6) (he : i.exempt = false) :
    exec i s = .next (answerLocked s) := by
  rw [exec_eq, he, guarded_of_locked hs]; simp

/-- What a command word can do: that of its command, or the answer to an undefined opcode (R53). -/
theorem runCommand_cases (cw : CmdWord) (s : State) :
    (∃ i, decode cw = .ok i ∧ encode i = cw ∧ runCommand cw s = exec i s) ∨
    (cw.op ∉ definedOpcodes ∧ runCommand cw s = .next (undefinedOp s)) := by
  cases h : decode cw with
  | ok i =>
    obtain ⟨h1, h2⟩ := decode_eq_ok h
    refine .inl ⟨i, rfl, ?_, by simp [runCommand, h]⟩
    rw [encode, h1, h2]; exact op_append_arg cw
  | error e => exact .inr ⟨(decode_eq_error h).2, by simp [runCommand, h]⟩

/-- Every command word is answered with a next state. -/
theorem runCommand_next (cw : CmdWord) (s : State) : ∃ t, runCommand cw s = .next t := by
  rcases runCommand_cases cw s with ⟨i, -, -, h⟩ | ⟨-, h⟩
  · rw [h]; exact exec_next i s
  · exact ⟨_, h⟩

/-! ### What an effect leaves alone -/

section
variable (i : Instr) (s : State)

@[simp] theorem effect_cfg : (effect i s).cfg = s.cfg := by cases i <;> simp [effect]
@[simp] theorem effect_rsps : (effect i s).rsps = s.rsps := by cases i <;> simp [effect]
@[simp] theorem effect_inputs : (effect i s).inputs = s.inputs := by cases i <;> simp [effect]
@[simp] theorem effect_resetSeen : (effect i s).resetSeen = s.resetSeen := by cases i <;> simp [effect]

/-- An effect appends at most two words (R8). -/
theorem effect_enc : ∃ ws, ws.length ≤ 2 ∧ (effect i s).enc = s.enc ++ ws := by
  have one : ∀ m r x, (runPush m r x).2.length ≤ 2 := fun _ _ _ => le_trans length_runPush_le (by omega)
  cases i with
  | qtile arg =>
    by_cases h : (quantizeInto arg s).chain = true
    · exact ⟨_, one _ _ _, by simp only [effect]; rw [chainPush_of_chained _ h]; rfl⟩
    · exact ⟨[], by simp, by simp only [effect]; rw [chainPush_of_unchained _ (by simpa using h)]; simp⟩
  | rsym mbz imm => exact ⟨_, one _ _ _, rfl⟩
  | rend mbz => exact ⟨runEnd s.rleMode s.run, by unfold runEnd; split <;> simp, rfl⟩
  | _ => exact ⟨[], by simp, by simp [effect]⟩

end

end Sys2Proof.Machine
end

