-- ==== Sys2Proof/Laws/Flags.lean ====
section
/-!
SUPPORT. The control and status registers and the result word as numbers: where each field stands (spec/10_state.md
R15 to R20, spec/40_tile_quantizer.md R76), and the sticky bits (R121).
-/

namespace Sys2Proof.Machine

/-- Two fields as a number. -/
theorem toNat_append_two {a b : Nat} (x : BitVec a) (y : BitVec b) :
    (x ++ y).toNat = x.toNat * 2 ^ b + y.toNat := by
  rw [BitVec.toNat_append, ← Nat.shiftLeft_add_eq_or_of_lt y.isLt, Nat.shiftLeft_eq]

/-- Three fields as a number. -/
theorem toNat_append_three {a b c : Nat} (x : BitVec a) (y : BitVec b) (z : BitVec c) :
    (x ++ y ++ z).toNat = (x.toNat * 2 ^ b + y.toNat) * 2 ^ c + z.toNat := by
  rw [toNat_append_two, toNat_append_two]

/-- Four fields as a number. -/
theorem toNat_append_four {a b c d : Nat} (x : BitVec a) (y : BitVec b) (z : BitVec c) (w : BitVec d) :
    (x ++ y ++ z ++ w).toNat = ((x.toNat * 2 ^ b + y.toNat) * 2 ^ c + z.toNat) * 2 ^ d + w.toNat := by
  rw [toNat_append_two, toNat_append_three]

theorem toNat_ofBool (b : Bool) : (BitVec.ofBool b).toNat = b.toNat := by cases b <;> rfl

theorem toNat_ctrl (s : State) : (ctrl s).toNat = 2 * s.chain.toNat + s.rleMode.bit.toNat := by
  refine (toNat_append_three _ _ _).trans ?_
  rw [toNat_ofBool, toNat_ofBool, BitVec.toNat_ofNat]
  omega

theorem toNat_status (s : State) :
    (status s).toNat = 4 * s.locked.toNat + 2 * s.qres.valid.toNat + s.run.active.toNat := by
  refine (toNat_append_four _ _ _ _).trans ?_
  rw [toNat_ofBool, toNat_ofBool, toNat_ofBool, BitVec.toNat_ofNat]
  omega

theorem toNat_errCsr (s : State) : (errCsr s).toNat = s.err.toNat := by
  refine (toNat_append_two _ _).trans ?_
  simp

theorem toNat_runCsr (s : State) : (runCsr s).toNat = s.run.cnt.toNat * 2 ^ 16 + s.run.sym.toNat := by
  refine (toNat_append_four _ _ _ _).trans ?_
  rw [BitVec.toNat_ofNat, BitVec.toNat_ofNat]
  omega

theorem toNat_qresCsr (s : State) : (qresCsr s).toNat = s.qres.dist.toNat * 2 ^ 16 + s.qres.idx.toNat := by
  refine (toNat_append_four _ _ _ _).trans ?_
  rw [BitVec.toNat_ofNat, BitVec.toNat_ofNat]
  omega

theorem side_cases (c : Cfg) : c.side = 4 ∨ c.side = 8 := by
  cases h : c.tile <;> simp [Cfg.side, TileSide.pixels, h]

theorem toNat_param {c : Cfg} (hK : c.K ≤ 2048) : (param c).toNat = c.side * 2 ^ 16 + c.K := by
  refine (toNat_append_four _ _ _ _).trans ?_
  have := side_cases c
  simp only [BitVec.toNat_ofNat]
  omega

theorem toNat_resultData (idx : BitVec 11) (dist : BitVec 7) :
    (resultData idx dist).toNat = dist.toNat * 2 ^ 16 + idx.toNat := by
  refine (toNat_append_four _ _ _ _).trans ?_
  rw [BitVec.toNat_ofNat, BitVec.toNat_ofNat]
  omega

/-- Only the registers 0 to 5 exist (R14). -/
theorem readCsr_eq_none_iff (s : State) (n : BitVec 8) : readCsr s n = none ↔ 5 < n.toNat := by
  unfold readCsr
  split
  all_goals simp_all
  omega

/-- The sticky bit of an error is the one bit below its number (R17, R121). -/
theorem getLsbD_bit (e : ErrorKind) (n : Nat) : e.bit.getLsbD n = decide (n + 1 = e.number) := by
  by_cases hn : n < 6
  · interval_cases n <;> cases e <;> decide
  · rw [BitVec.getLsbD_of_ge _ _ (by omega)]
    symm
    rw [decide_eq_false_iff_not]
    cases e <;> simp [ErrorKind.number] <;> omega

theorem bit_ne_zero (e : ErrorKind) : e.bit ≠ 0#6 := by cases e <;> decide

/-- After an error `err` is not 0: the block is locked (R123). -/
theorem or_bit_ne_zero (v : BitVec 6) (e : ErrorKind) : v ||| e.bit ≠ 0#6 := by
  intro h
  apply bit_ne_zero e
  have : (v ||| e.bit).toNat = 0 := by rw [h]; rfl
  rw [BitVec.toNat_or, Nat.or_eq_zero_iff] at this
  exact BitVec.eq_of_toNat_eq this.2

/-- The legal values of `CTRL` are 0, 1 and 2 (R115). -/
theorem ctrlLegal_iff (v : BitVec 32) : ctrlLegal v = true ↔ v.toNat < 3 := by
  have h1 : (v.extractLsb' 2 30 == 0#30) = decide (v.toNat < 4) := by
    rw [Bool.eq_iff_iff, beq_iff_eq, decide_eq_true_iff, BitVec.toNat_eq]
    simp [BitVec.extractLsb'_toNat, Nat.shiftRight_eq_div_pow]; omega
  have h2 : (v.extractLsb' 0 2 != 3#2) = decide (v.toNat % 4 ≠ 3) := by
    rw [Bool.eq_iff_iff, bne_iff_ne, decide_eq_true_iff, Ne, BitVec.toNat_eq]
    simp [BitVec.extractLsb'_toNat]
  rw [ctrlLegal, h1, h2]; simp; omega

/-- The byte of R34 as a number. -/
theorem toNat_codewordByte (c : Cfg) (v : Data) (j : Nat) :
    (codewordByte c v j).toNat = v.toNat / 2 ^ (c.L - 8 - 8 * j) % 256 := by
  simp [codewordByte, Nat.shiftRight_eq_div_pow]

end Sys2Proof.Machine
end

