-- ==== Sys2Proof/Laws/PerInstr.lean ====
section
/-!
SUPPORT. What holds of every command as syntax, one lemma per constructor. `OpcodeKept`: the word of a command has
the command's own opcode in bits 71:64, whatever its operand fields hold (spec/30_encoding.md R51, R52), and that
opcode is one of the nine of R54.
-/

namespace Sys2Proof.Laws.OpcodeKept

/-- The opcode byte of the command's word is the command's own, and it is a defined one. -/
def Statement (i : Instr) : Prop := (encode i).op = i.opcode ∧ i.opcode ∈ definedOpcodes

theorem nop (mbz : BitVec 64) : Statement (.nop mbz) :=
  ⟨op_encode _, by simp [Instr.opcode, definedOpcodes]⟩

theorem srst (mbz : BitVec 64) : Statement (.srst mbz) :=
  ⟨op_encode _, by simp [Instr.opcode, definedOpcodes]⟩

theorem rdcsr (mbzHi : BitVec 24) (csr : BitVec 8) (valMbz : BitVec 32) : Statement (.rdcsr mbzHi csr valMbz) :=
  ⟨op_encode _, by simp [Instr.opcode, definedOpcodes]⟩

theorem wrcsr (mbzHi : BitVec 24) (csr : BitVec 8) (val : BitVec 32) : Statement (.wrcsr mbzHi csr val) :=
  ⟨op_encode _, by simp [Instr.opcode, definedOpcodes]⟩

theorem qtile (arg : BitVec 64) : Statement (.qtile arg) :=
  ⟨op_encode _, by simp [Instr.opcode, definedOpcodes]⟩

theorem lookup (mbz : BitVec 48) (imm : BitVec 16) : Statement (.lookup mbz imm) :=
  ⟨op_encode _, by simp [Instr.opcode, definedOpcodes]⟩

theorem lookupb (mbz : BitVec 48) (imm : BitVec 16) : Statement (.lookupb mbz imm) :=
  ⟨op_encode _, by simp [Instr.opcode, definedOpcodes]⟩

theorem rsym (mbz : BitVec 48) (imm : BitVec 16) : Statement (.rsym mbz imm) :=
  ⟨op_encode _, by simp [Instr.opcode, definedOpcodes]⟩

theorem rend (mbz : BitVec 64) : Statement (.rend mbz) :=
  ⟨op_encode _, by simp [Instr.opcode, definedOpcodes]⟩

end Sys2Proof.Laws.OpcodeKept
end

