-- ==== Sys2Proof/Laws/Step.lean ====
section
/-!
SUPPORT. What a step can do, said once: it waits, or it takes one event of the surroundings (`step_cases`,
`handle_cases`).
-/

namespace Sys2Proof.Machine

/-- A step of a block that is ready takes the next event. -/
theorem step_of_event {s : State} (hr : s.Ready) {e : Event} {rest : List Event} (hi : s.inputs = e :: rest) :
    step s = handle e { s with inputs := rest } := by
  simp [step, advance, hr.1, hi]

/-- A step of a block that is ready runs the command that is presented. -/
theorem step_of_command {s : State} (hr : s.Ready) {cw : CmdWord} {rest : List Event}
    (hi : s.inputs = .command cw :: rest) : step s = runCommand cw { s with inputs := rest } := by
  rw [step_of_event hr hi]; simp [handle, afterFirstReset, hr.2]

/-- A step that answers a next state: nothing was presented, or one event was handled; the configuration is legal. -/
theorem step_cases {s t : State} (h : step s = .next t) :
    s.cfg.legal = true ∧ ((s.inputs = [] ∧ t = s) ∨
      ∃ e rest, s.inputs = e :: rest ∧ handle e { s with inputs := rest } = .next t) := by
  unfold step advance at h
  split at h
  · cases h
  · next hl =>
    refine ⟨by simpa using hl, ?_⟩
    split at h
    · next hi =>
      unfold afterFirstReset at h; split at h
      · injection h with h; exact .inl ⟨hi, h.symm⟩
      · cases h
    · next e rest hi => exact .inr ⟨e, rest, hi, h⟩

theorem afterFirstReset_next {s t : State} {o : Host.Outcome State Fault Refusal}
    (h : afterFirstReset s o = .next t) : s.resetSeen = true ∧ o = .next t := by
  unfold afterFirstReset at h; split at h
  · exact ⟨by assumption, h⟩
  · cases h

/-- An event that leaves a next state: a command, a hard reset, a hard reset during a command, or a delay. -/
theorem handle_cases {e : Event} {s t : State} (h : handle e s = .next t) :
    (∃ cw, e = .command cw ∧ s.resetSeen = true ∧ runCommand cw s = .next t) ∨
    (e = .hardReset ∧ t = hardReset s) ∨
    (∃ cw sent, e = .hardResetDuring cw sent ∧ s.resetSeen = true ∧ t = hardResetDuring cw sent s) ∨
    (e = .delay ∧ s.resetSeen = true ∧ t = s) := by
  cases e <;> simp only [handle] at h
  case command cw => obtain ⟨h1, h2⟩ := afterFirstReset_next h; exact .inl ⟨cw, rfl, h1, h2⟩
  case hardReset => injection h with h; exact .inr (.inl ⟨rfl, h.symm⟩)
  case hardResetDuring cw sent =>
    obtain ⟨h1, h2⟩ := afterFirstReset_next h; injection h2 with h2
    exact .inr (.inr (.inl ⟨cw, sent, rfl, h1, h2.symm⟩))
  case delay =>
    obtain ⟨h1, h2⟩ := afterFirstReset_next h; injection h2 with h2
    exact .inr (.inr (.inr ⟨rfl, h1, h2.symm⟩))
  all_goals (obtain ⟨_, h2⟩ := afterFirstReset_next h; cases h2)

/-- The words a command emits are what it appends to `enc`. -/
theorem enc_runCommand {cw : CmdWord} {s t : State} (h : runCommand cw s = .next t) :
    t.enc = s.enc ++ emission cw s := by
  have key : ∃ ws, t.enc = s.enc ++ ws := by
    rcases runCommand_cases cw s with ⟨i, -, -, h'⟩ | ⟨-, h'⟩
    · rw [h'] at h
      rcases exec_cases h with ⟨-, -, rfl⟩ | ⟨-, e, rfl⟩ | ⟨-, -, -, d, rfl⟩
      · exact ⟨[], by simp⟩
      · exact ⟨[], by simp⟩
      · obtain ⟨ws, -, he⟩ := effect_enc i s
        exact ⟨ws, by simp [he]⟩
    · rw [h'] at h
      injection h with h
      refine ⟨[], ?_⟩
      rw [← h, undefinedOp]
      split <;> simp
  obtain ⟨ws, hws⟩ := key
  rw [emission, h]
  simp [hws]


end Sys2Proof.Machine
end

