-- ==== Sys2Proof/Laws/Run.lean ====
section
/-!
SUPPORT. Lists of command words (spec/70_reset_and_hazards.md R144): executing one, two in a row, and presenting one to
the machine; which commands push a symbol.
-/

namespace Sys2Proof.Machine

/-! ### Executing a list -/

@[simp] theorem runCommands_nil (s : State) : runCommands [] s = .next s := rfl

theorem runCommands_cons {cw : CmdWord} {s t : State} (h : runCommand cw s = .next t) (rest : List CmdWord) :
    runCommands (cw :: rest) s = runCommands rest t := by simp [runCommands, h]

@[simp] theorem anyPush_nil (s : State) : anyPush [] s = false := rfl

theorem anyPush_cons {cw : CmdWord} {s t : State} (h : runCommand cw s = .next t) (rest : List CmdWord) :
    anyPush (cw :: rest) s = (pushesSymbol cw s || anyPush rest t) := by simp [anyPush, h]

/-- A list of command words never stops (R120). -/
theorem runCommands_next (words : List CmdWord) (s : State) : ∃ t, runCommands words s = .next t := by
  induction words generalizing s with
  | nil => exact ⟨s, rfl⟩
  | cons cw rest ih =>
    obtain ⟨u, hu⟩ := runCommand_next cw s
    rw [runCommands_cons hu]; exact ih u

/-- Two lists, one after the other. -/
theorem runCommands_append {words : List CmdWord} {s t : State} (h : runCommands words s = .next t)
    (more : List CmdWord) : runCommands (words ++ more) s = runCommands more t := by
  induction words generalizing s with
  | nil => injection h with h; rw [h]; rfl
  | cons cw rest ih =>
    obtain ⟨u, hu⟩ := runCommand_next cw s
    rw [runCommands_cons hu] at h
    rw [List.cons_append, runCommands_cons hu]; exact ih h

/-- What holds before a list of commands and is kept by each command holds after it. -/
theorem runCommands_induct {P : State → Prop} (hP : ∀ cw s t, P s → runCommand cw s = .next t → P t)
    {words : List CmdWord} {s t : State} (hs : P s) (h : runCommands words s = .next t) : P t := by
  induction words generalizing s with
  | nil => injection h with h; exact h ▸ hs
  | cons cw rest ih =>
    obtain ⟨u, hu⟩ := runCommand_next cw s
    rw [runCommands_cons hu] at h; exact ih (hP cw s u hs hu) h

/-! ### Presenting a list -/

/-- `s` with other events to come. -/
def State.withInputs (inputs : List Event) (s : State) : State := { s with inputs := inputs }

section
variable (inputs : List Event) (s : State)

@[simp] theorem withInputs_err : (s.withInputs inputs).err = s.err := rfl
@[simp] theorem withInputs_cfg : (s.withInputs inputs).cfg = s.cfg := rfl
@[simp] theorem withInputs_run : (s.withInputs inputs).run = s.run := rfl
@[simp] theorem withInputs_rleMode : (s.withInputs inputs).rleMode = s.rleMode := rfl
@[simp] theorem withInputs_readCsr (csr : BitVec 8) : readCsr (s.withInputs inputs) csr = readCsr s csr := rfl

theorem withInputs_respond (code : Code) (data : Data) :
    (respond code data s).withInputs inputs = respond code data (s.withInputs inputs) := rfl

theorem withInputs_raise (e : ErrorKind) : (raise e s).withInputs inputs = raise e (s.withInputs inputs) := rfl

theorem withInputs_chainPush : (chainPush s).withInputs inputs = chainPush (s.withInputs inputs) := by
  cases h : s.chain with
  | true => rw [chainPush_of_chained s h, chainPush_of_chained (s.withInputs inputs) h]; rfl
  | false => rw [chainPush_of_unchained s h, chainPush_of_unchained (s.withInputs inputs) h]

/-- The own rule of a command reads no event. -/
theorem ownRule_withInputs (i : Instr) : ownRule i (s.withInputs inputs) = (ownRule i s).withInputs inputs := by
  cases i with
  | rdcsr a csr c => simp only [ownRule, rdcsrBody, withInputs_readCsr]; cases readCsr s csr <;> rfl
  | wrcsr a csr val =>
    simp only [ownRule, wrcsrBody, withInputs_run]
    rw [apply_ite (State.withInputs inputs), apply_ite (State.withInputs inputs), apply_ite (State.withInputs inputs)]
    rfl
  | qtile arg => simp only [ownRule, qtileBody, withInputs_respond, withInputs_chainPush]; rfl
  | lookup a imm => simp only [ownRule, lookupBody, withInputs_cfg]; cases cbRead s.cfg imm.toNat <;> rfl
  | lookupb a imm => simp only [ownRule, lookupbBody, withInputs_cfg]; cases cbReadByte s.cfg imm.toNat <;> rfl
  | rsym a imm =>
    simp only [ownRule, rsymBody, withInputs_rleMode]
    rw [apply_ite (State.withInputs inputs)]; rfl
  | _ => rfl

end

/-- No command reads the events that follow it. -/
theorem exec_withInputs {i : Instr} {s t : State} (h : exec i s = .next t) (inputs : List Event) :
    exec i (s.withInputs inputs) = .next (t.withInputs inputs) := by
  cases he : i.exempt with
  | false =>
    by_cases hs : s.err = 0#6
    · cases hw : i.wellFormed s.cfg with
      | true =>
        rw [exec_of_passed (.inl hs) hw] at h; injection h with h
        rw [exec_of_passed (s := s.withInputs inputs) (.inl hs) hw, ownRule_withInputs, h]
      | false =>
        rw [exec_of_illFormed (.inl hs) hw] at h; injection h with h
        rw [exec_of_illFormed (s := s.withInputs inputs) (.inl hs) hw, ← h]; rfl
    · rw [exec_of_locked hs he] at h; injection h with h
      rw [exec_of_locked (s := s.withInputs inputs) hs he, ← h]; rfl
  | true =>
    cases hw : i.wellFormed s.cfg with
    | true =>
      rw [exec_of_passed (.inr he) hw] at h; injection h with h
      rw [exec_of_passed (s := s.withInputs inputs) (.inr he) hw, ownRule_withInputs, h]
    | false =>
      rw [exec_of_illFormed (.inr he) hw] at h; injection h with h
      rw [exec_of_illFormed (s := s.withInputs inputs) (.inr he) hw, ← h]; rfl

/-- No command word reads the events that follow it. -/
theorem runCommand_withInputs {cw : CmdWord} {s t : State} (h : runCommand cw s = .next t) (inputs : List Event) :
    runCommand cw (s.withInputs inputs) = .next (t.withInputs inputs) := by
  cases hd : decode cw with
  | ok i =>
    simp only [runCommand, hd] at h ⊢
    exact exec_withInputs h inputs
  | error e =>
    simp only [runCommand, hd] at h ⊢
    injection h with h
    rw [← h]
    by_cases hs : s.err = 0#6
    · rw [undefinedOp_of_unlocked hs, undefinedOp_of_unlocked (s := s.withInputs inputs) hs]; rfl
    · rw [undefinedOp_of_locked hs, undefinedOp_of_locked (s := s.withInputs inputs) hs]; rfl

/-! ### Pushing -/

/-- Two kinds of commands push: `RSYM`, and `QTILE` with `chain = 1` (R149). -/
theorem opcode_of_pushesSymbol {cw : CmdWord} {s : State} (h : pushesSymbol cw s = true) :
    answersOk cw s = true ∧ ((∃ mbz imm, decode cw = .ok (.rsym mbz imm)) ∨
      s.chain = true ∧ ∃ arg, decode cw = .ok (.qtile arg)) := by
  unfold pushesSymbol at h
  split at h
  all_goals first | cases h | skip
  · exact ⟨h, .inl ⟨_, _, by assumption⟩⟩
  · simp only [Bool.and_eq_true] at h
    exact ⟨h.2, .inr ⟨h.1, _, by assumption⟩⟩

/-- `answersOk` reads the last response. -/
theorem answersOk_iff {cw : CmdWord} {s t : State} (h : runCommand cw s = .next t) :
    answersOk cw s = true ↔ t.rsps.getLast?.map Rsp.code = some .ok := by simp [answersOk, h]

end Sys2Proof.Machine
end

