-- ==== Sys2Proof/Tests/Slice0.lean ====
section
/-!
SUPPORT. Tests. Expected values are those of spec/95_test_vectors.md and of the tables of spec/30_encoding.md, never
the model's own answers. The last part shows, for every statement that has hypotheses, a state and operands that
meet them.
-/

open Sys2Proof Sys2Proof.Machine

namespace Sys2Proof.Tests

/-! ### Helpers -/

/-- Config B of spec/95_test_vectors.md section 2. -/
def configB : Cfg :=
  ⟨.eight, [0x0000000000000000, 0xFFFFFFFFFFFFFFFF, 0xFF00FF00FF00FF00, 0xAAAAAAAAAAAAAAAA, 0x00000000FFFFFFFF]⟩

def resetB : State := State.resetWith configB

/-- After an error whose sticky bit is bit 1 (`BAD_OPERAND`). -/
def lockedA : State := { State.reset with err := 2#6 }

/-- A run of symbol `sym`, `cnt` long, is open. -/
def runningA (sym : BitVec 11) (cnt : BitVec 7) : State := { State.reset with run := ⟨true, sym, cnt⟩ }

def pixelA : State := { State.reset with rleMode := .pixel }

def chainedA : State := { State.reset with chain := true }

/-- What one presented command leaves, seen through `view`. -/
def after {α : Type} (cw : CmdWord) (s : State) (view : State → α) : Option α :=
  match step (present cw s) with
  | .next t => some (view t)
  | .fault _ => none
  | .refused _ => none

/-- The last response as `code:data`. -/
def lastRsp (s : State) : Option (Nat × Nat) := s.rsps.getLast?.map fun r => (r.code.number.toNat, r.data.toNat)

/-- What most rows of the vectors say: the response, `ERR`, and the words of `enc` as pairs (width, value). -/
def seen (s : State) : Option (Nat × Nat) × Nat × List (Nat × Nat) :=
  (lastRsp s, (errCsr s).toNat, s.enc.map fun w => (w.width, w.value))

/-! ### Well-formed commands: one ill-formed command for each check -/

theorem test_wf_nop : Instr.wellFormed configA (.nop 1) = false := by decide
theorem test_wf_srst : Instr.wellFormed configA (.srst 0x8000000000000000) = false := by decide
theorem test_wf_rdcsr_hi : Instr.wellFormed configA (.rdcsr 1 0 0) = false := by decide
theorem test_wf_rdcsr_val : Instr.wellFormed configA (.rdcsr 0 1 1) = false := by decide
theorem test_wf_wrcsr : Instr.wellFormed configA (.wrcsr 0x800000 0 0) = false := by decide
theorem test_wf_qtile : Instr.wellFormed configA (.qtile 0x18001) = false := by decide
theorem test_wf_lookup : Instr.wellFormed configA (.lookup 1 2) = false := by decide
theorem test_wf_lookupb : Instr.wellFormed configA (.lookupb 0x800000000000 0) = false := by decide
theorem test_wf_rsym : Instr.wellFormed configA (.rsym 1 0) = false := by decide
theorem test_wf_rend : Instr.wellFormed configA (.rend 1) = false := by decide
/-- With `L = 64` no bit of a tile operand must be zero (R51). -/
theorem test_wf_qtile_B : Instr.wellFormed configB (.qtile 0xFFFFFFFFFFFFFFFF) = true := by decide

/-- The configurations the spec forbids (R3): no codeword, and a codeword that does not fit `L` bits. -/
theorem test_cfg_no_codeword : Cfg.legal ⟨.four, []⟩ = false := by decide
theorem test_cfg_wide_codeword : Cfg.legal ⟨.four, [0x10000]⟩ = false := by decide
theorem test_cfg_legal : configA.legal = true ∧ configB.legal = true := by decide

/-! ### Decoding: the bits of spec/30_encoding.md R51 and R54 written out -/

theorem test_decode_nop :
    decode (0b00000000#8 ++ 0b0000000000000000000000000000000000000000000000000000000000000000#64) = .ok (.nop 0) := by
  decide
theorem test_decode_srst : decode (0b00000001#8 ++ 0#64) = .ok (.srst 0) := by decide
/-- `rdcsr qres`: format C, `csr` in bits 39:32. -/
theorem test_decode_rdcsr :
    decode (0b00000010#8 ++ 0b000000000000000000000000#24 ++ 0b00000100#8 ++ 0b00000000000000000000000000000000#32) =
      .ok (.rdcsr 0 4 0) := by decide
/-- `wrcsr ctrl, 2`: format C, `val` in bits 31:0. -/
theorem test_decode_wrcsr :
    decode (0b00000011#8 ++ 0b000000000000000000000000#24 ++ 0b00000000#8 ++ 0b00000000000000000000000000000010#32) =
      .ok (.wrcsr 0 0 2) := by decide
theorem test_decode_qtile :
    decode (0b00010000#8 ++ 0#48 ++ 0b1000000000000001#16) = .ok (.qtile 0x8001) := by decide
/-- Format I: `imm` in bits 15:0. -/
theorem test_decode_lookup :
    decode (0b00010001#8 ++ 0#48 ++ 0b0000000000000011#16) = .ok (.lookup 0 3) := by decide
theorem test_decode_lookupb :
    decode (0b00010010#8 ++ 0#48 ++ 0b0000000000010111#16) = .ok (.lookupb 0 23) := by decide
theorem test_decode_rsym :
    decode (0b00100000#8 ++ 0#48 ++ 0b0000011111111111#16) = .ok (.rsym 0 2047) := by decide
theorem test_decode_rend : decode (0b00100001#8 ++ 0#64) = .ok (.rend 0) := by decide
/-- The neighbours of the defined opcodes are reserved (R55). -/
theorem test_decode_reserved :
    ([0x04, 0x0F, 0x13, 0x1F, 0x22, 0xFF].all fun op : BitVec 8 =>
      decide (decode (op ++ 0#64) = .error (.illegalOp op))) = true := by decide
/-- Every field at the vectors' raw words: a "must be zero" bit reaches its own field. -/
theorem test_encode_raw :
    encode (.lookup 1 2) = 0x11_0000000000010002#72 ∧ encode (.rdcsr 0 1 1) = 0x02_0000000100000001#72 ∧
      encode (.wrcsr 0 7 0xFFFFFFFF) = 0x03_00000007FFFFFFFF#72 ∧ encode (.rend 1) = 0x21_0000000000000001#72 := by
  decide
theorem test_table_word : decodeTableWord 72 0x10_0000000000008001 = some (.qtile 0x8001) := by decide
/-- Bits above `nbits` are 0. -/
theorem test_table_word_short : decodeTableWord 8 0x10_0000000000000021 = some (.nop 0x21) := by decide

/-! ### One command from the vectors (spec/95_test_vectors.md sections 2.2 to 2.7) -/

theorem test_nop_operand : after 0x00_0000000000000001#72 .reset seen = some (some (2, 0), 2, []) := by decide
theorem test_nop_locked : after 0x00_0000000000000000#72 lockedA seen = some (some (15, 0), 2, []) := by decide

theorem test_srst_operand : after 0x01_0000000000000001#72 lockedA seen = some (some (2, 0), 2, []) := by decide
theorem test_srst_clears :
    after 0x01_0000000000000000#72 { lockedA with chain := true, run := ⟨true, 7, 1⟩, enc := [.w16 0x43] }
      (fun t => (seen t, (ctrl t).toNat, (status t).toNat, (runCsr t).toNat)) =
      some ((some (0, 0), 0, [(16, 0x43)]), 0, 0, 0) := by decide

theorem test_rdcsr_param : after 0x02_0000000500000000#72 .reset seen = some (some (0, 0x00040004), 0, []) := by decide
theorem test_rdcsr_undefined : after 0x02_0000000900000000#72 { lockedA with err := 0x10 } seen =
    some (some (3, 0), 0x14, []) := by decide

theorem test_wrcsr_illegal :
    after 0x03_0000000000000003#72 .reset (fun t => (seen t, (status t).toNat, (ctrl t).toNat)) =
      some ((some (2, 0), 2, []), 4, 0) := by decide
theorem test_wrcsr_priority : after 0x03_00000007FFFFFFFF#72 (runningA 7 1) seen = some (some (3, 0), 4, []) := by
  decide

/-- A tie of entries 0 and 3 is won by the lower index. -/
theorem test_qtile_tie :
    after 0x10_0000000000008001#72 .reset (fun t => (seen t, (qresCsr t).toNat, (status t).toNat)) =
      some ((some (0, 0x00020000), 0, []), 0x00020000, 2) := by decide
/-- Chained: the index 2 is pushed and the open run of index 0 is flushed (P3 step 4). -/
theorem test_qtile_chained :
    after 0x10_0000000000000F0E#72 { chainedA with run := ⟨true, 0, 2⟩ } (fun t => (seen t, (runCsr t).toNat)) =
      some ((some (0, 0x00010002), 0, [(16, 0x0002)]), 0x00010002) := by decide

theorem test_lookup : after 0x11_0000000000000002#72 resetB seen = some (some (0, 0xFF00FF00FF00FF00), 0, []) := by
  decide
theorem test_lookup_range : after 0x11_0000000000000004#72 .reset seen = some (some (4, 0), 8, []) := by decide

theorem test_lookupb : after 0x12_0000000000000004#72 .reset seen = some (some (0, 0x0F), 0, []) := by decide
theorem test_lookupb_last :
    after 0x12_0000000000000027#72 resetB seen = some (some (0, 0xFF), 0, []) ∧
      after 0x12_0000000000000028#72 resetB seen = some (some (4, 0), 8, []) := by decide

/-- The 32nd equal symbol flushes a word of count 31 (section 2.5). -/
theorem test_rsym_full : after 0x20_0000000000000003#72 (runningA 3 31) (fun t => (seen t, (runCsr t).toNat)) =
    some ((some (0, 0), 0, [(16, 0x007F)]), 0x00010003) := by decide
theorem test_rsym_range : after 0x20_0000000000000002#72 { pixelA with run := ⟨true, 1, 1⟩ }
    (fun t => (seen t, (runCsr t).toNat)) = some ((some (5, 0), 0x10, []), 0x00010001) := by decide

theorem test_rend_pixel : after 0x21_0000000000000000#72 { pixelA with run := ⟨true, 1, 3⟩ } seen =
    some (some (0, 0), 0, [(8, 0x83), (8, 0x00)]) := by decide
theorem test_rend_empty : after 0x21_0000000000000000#72 .reset seen = some (some (0, 0), 0, [(16, 0x0000)]) := by
  decide

/-- The host's way of placing a command: the very next step runs it (P1 step 1). -/
theorem test_with_fetch_word :
    (match step (State.reset.withFetchWord 72 0x20_0000000000000002) with
      | .next t => some (lastRsp t, (runCsr t).toNat, t.inputs)
      | .fault _ => none
      | .refused _ => none) = some (some (0, 0), 0x00010002, []) := by decide

/-! ### The functions beside the block -/

theorem test_hamming : hd 0x8001 0x0F0F = 8 ∧ hd 0x5555555555555555 0xAAAAAAAAAAAAAAAA = 64 := by decide
theorem test_quantize_distance_64 : (scanTile ⟨.eight, [0xFFFFFFFFFFFFFFFF]⟩ 0).bestDist = 64#7 := by decide
theorem test_rle_dict : (rleEncode .dict [2047, 2047, 0, 2047]).map EncWord.value = [0xFFE2, 0x0001, 0xFFE1, 0] := by
  decide
theorem test_rle_pixel : (rleEncode .pixel [0, 0, 0, 1, 1, 0]).map EncWord.value = [0x03, 0x82, 0x01, 0x00] := by
  decide
/-- The tile with rows 1000, 0000, 0000, 0001 (R31). -/
theorem test_tile_value :
    tileValue [true, false, false, false, false, false, false, false,
      false, false, false, false, false, false, false, true] = 0x8001 := by decide
theorem test_packed_image : packedImage configA = [0x00, 0x00, 0xFF, 0xFF, 0x0F, 0x0F, 0x00, 0x00] := by decide
/-- P6: four tiles, two in a row; row 4, column 4 of the rebuilt frame is in the tile 0xFFFF, row 0 all 0. -/
theorem test_rebuilt : rebuiltPixel configA [0, 0, 2, 1] 2 4 4 = some true ∧
    rebuiltPixel configA [0, 0, 2, 1] 2 0 0 = some false ∧ rebuiltPixel configA [0, 0, 2, 1] 2 0 8 = none := by decide
theorem test_frame_indices :
    frameIndexSequence [(.wrcsr 0 0 2, ⟨.ok, 0⟩), (.qtile 0x0F0E, ⟨.ok, 0x00010002⟩), (.qtile 0, ⟨.locked, 0⟩)] =
      [2] := by decide
theorem test_assemble_line :
    assembleText configA "wrcsr ctrl, 2  # chain\nqtile 0x0F0E\n\nrend".toList =
      some [0x03_0000000000000002#72, 0x10_0000000000000F0E#72, 0x21_0000000000000000#72] := by decide
theorem test_assemble_pseudo : assemble configA (.rseq [2, 5]) =
    some [0x20_0000000000000002#72, 0x20_0000000000000005#72, 0x21_0000000000000000#72] := by decide
theorem test_assemble_refuses : assemble configA (.qtile 0x18001) = none := by decide

/-! ### Witnesses: for each statement with hypotheses, a state and operands that meet all of them, clause by clause,
at the ends of the ranges -/

theorem ready_reset : State.reset.Ready := ⟨by decide, rfl⟩
theorem ready_resetB : resetB.Ready := ⟨by decide, rfl⟩

/-- A state with `e` as the next event. -/
def awaiting (e : Event) (s : State) : State := { s with inputs := [e] }

/-- An illegal opcode with the block unlocked: the lowest and the highest reserved value. -/
theorem witness_ReservedOpcodesAreIllegal :
    State.reset.err = 0#6 ∧
      CmdWord.op 0x04_0000000000000000#72 ∉
        [0x00#8, 0x01#8, 0x02#8, 0x03#8, 0x10#8, 0x11#8, 0x12#8, 0x20#8, 0x21#8] ∧
      CmdWord.op 0xFF_FFFFFFFFFFFFFFFF#72 ∉
        [0x00#8, 0x01#8, 0x02#8, 0x03#8, 0x10#8, 0x11#8, 0x12#8, 0x20#8, 0x21#8] := by decide

/-- A "must be zero" bit is 1: unlocked, and for the two exempt commands locked too; one word of each opcode. -/
theorem witness_OperandFieldsAndMustBeZeroBits :
    decode 0x00_0000000000000001#72 = .ok (.nop 1) ∧ Instr.wellFormed State.reset.cfg (.nop 1) = false ∧
      State.reset.err = 0#6 ∧
      decode 0x01_8000000000000000#72 = .ok (.srst 0x8000000000000000) ∧
      Instr.wellFormed lockedA.cfg (.srst 0x8000000000000000) = false ∧
      CmdWord.op 0x01_8000000000000000#72 = 0x01#8 ∧
      decode 0x02_0000000100000001#72 = .ok (.rdcsr 0 1 1) ∧ Instr.wellFormed lockedA.cfg (.rdcsr 0 1 1) = false ∧
      CmdWord.op 0x02_0000000100000001#72 = 0x02#8 ∧
      CmdWord.op 0x03_0000000000000000#72 = 0x03#8 ∧ CmdWord.op 0x10_0000000000000000#72 = 0x10#8 ∧
      CmdWord.op 0x11_0000000000000000#72 = 0x11#8 ∧ CmdWord.op 0x12_0000000000000000#72 = 0x12#8 ∧
      CmdWord.op 0x20_0000000000000000#72 = 0x20#8 ∧ CmdWord.op 0x21_0000000000000000#72 = 0x21#8 := by decide

theorem witness_AssembledWordsAreWellFormed :
    (∀ cw, AsmLine.rsym 65535 ≠ .raw cw) ∧
      assemble configA (.rsym 65535) = some [0x20_000000000000FFFF#72] ∧
      (∀ cw, AsmLine.qtile 65535 ≠ .raw cw) ∧
      assemble configA (.qtile 65535) = some [0x10_000000000000FFFF#72] :=
  ⟨nofun, by decide, nofun, by decide⟩

theorem witness_StepRunsThePresentedCommand :
    (awaiting (.command 0x20_0000000000000002#72) .reset).Ready ∧
      (awaiting (.command 0x20_0000000000000002#72) .reset).inputs = [.command 0x20_0000000000000002#72] ∧
      decode 0x20_0000000000000002#72 = .ok (.rsym 0 2) ∧
      decode 0x7F_0000000000000000#72 = .error (.illegalOp 0x7F) ∧
      decodeTableWord 72 0x200000000000000002 = some (.rsym 0 2) :=
  ⟨ready_reset, rfl, by decide, by decide, by decide⟩

/-- Locked by the lowest and by the highest bit; a command and an undefined opcode. -/
theorem witness_LockedBlockDoesNothing :
    lockedA.err ≠ 0#6 ∧ { lockedA with err := 32#6 }.err ≠ 0#6 ∧
      CmdWord.op 0x00_0000000000000000#72 ≠ 0x01#8 ∧ CmdWord.op 0x00_0000000000000000#72 ≠ 0x02#8 ∧
      CmdWord.op 0x7F_0000000000000000#72 ≠ 0x01#8 ∧ CmdWord.op 0x7F_0000000000000000#72 ≠ 0x02#8 := by decide

/-- A command answered with an error, and one answered `LOCKED`. -/
theorem witness_ErrorsArePrecise :
    runCommand 0x11_0000000000000004#72 .reset = .next (raise .indexRange .reset) ∧
      (raise .indexRange .reset).rsps = State.reset.rsps ++ [⟨.error .indexRange, 0#64⟩] ∧
      Code.error .indexRange ≠ .ok ∧
      runCommand 0x00_0000000000000000#72 lockedA = .next (answerLocked lockedA) ∧
      (answerLocked lockedA).rsps = lockedA.rsps ++ [⟨.locked, 0#64⟩] ∧ Code.locked ≠ .ok :=
  ⟨rfl, rfl, nofun, rfl, rfl, nofun⟩

/-- `SRST`, a hard reset and a hard reset during a command leave the lock. -/
theorem witness_LockIsLeftOnlyByReset :
    lockedA.err ≠ 0#6 ∧
      (∃ t, step (awaiting (.command 0x01_0000000000000000#72) lockedA) = .next t ∧ t.err = 0#6) ∧
      (∃ t, step (awaiting .hardReset lockedA) = .next t ∧ t.err = 0#6) ∧
      (∃ t, step (awaiting (.hardResetDuring 0x21_0000000000000000#72 1) lockedA) = .next t ∧ t.err = 0#6) :=
  ⟨by decide, ⟨_, rfl, rfl⟩, ⟨_, rfl, rfl⟩, ⟨_, rfl, rfl⟩⟩

/-- `RDCSR` of an undefined register and `SRST` with an operand, while locked. -/
theorem witness_NestedErrorsAddBits :
    lockedA.err ≠ 0#6 ∧ 0x02_0000000600000000#72 ≠ encode (.srst 0#64) ∧
      runCommand 0x02_0000000600000000#72 lockedA = .next (raise .csrAccess lockedA) ∧
      (raise .csrAccess lockedA).err ≠ lockedA.err ∧
      0x01_0000000000000001#72 ≠ encode (.srst 0#64) ∧
      runCommand 0x01_0000000000000001#72 lockedA = .next (raise .badOperand lockedA) ∧
      CmdWord.op 0x01_0000000000000001#72 = 0x01#8 :=
  ⟨by decide, by decide, rfl, by decide, by decide, rfl, by decide⟩

theorem witness_StopsOnlyWhereNoRuleApplies :
    (State.resetWith ⟨.four, []⟩).cfg.legal = false ∧
      ({ State.reset with resetSeen := false }.cfg.legal = true ∧
        { State.reset with resetSeen := false }.resetSeen = false ∧
        ∀ rest, { State.reset with resetSeen := false }.inputs ≠ .hardReset :: rest) ∧
      State.reset.Ready ∧
      (awaiting (.overlappingCommand 0) .reset).inputs = [.overlappingCommand 0] ∧
      (awaiting (.codebookChange [1]) .reset).inputs = [.codebookChange [1]] ∧
      (awaiting .consumerStops .reset).inputs = [.consumerStops] ∧
      ((∀ cw rest, (awaiting .delay .reset).inputs ≠ .overlappingCommand cw :: rest) ∧
        (∀ cb rest, (awaiting .delay .reset).inputs ≠ .codebookChange cb :: rest) ∧
        ∀ rest, (awaiting .delay .reset).inputs ≠ .consumerStops :: rest) :=
  ⟨by decide, ⟨by decide, rfl, nofun⟩, ready_reset, rfl, rfl, rfl, nofun, nofun, nofun⟩

theorem witness_WaitingChangesNothing :
    State.reset.Ready ∧ State.reset.inputs = [] ∧ (awaiting .delay .reset).Ready ∧
      (awaiting .delay .reset).inputs = [.delay] := ⟨ready_reset, rfl, ready_reset, rfl⟩

theorem witness_NopRule : lockedA.err ≠ 0#6 ∧ State.reset.err = 0#6 ∧ (1#64 : BitVec 64) ≠ 0#64 := by decide

theorem witness_SrstRule : (0x8000000000000000#64 : BitVec 64) ≠ 0#64 := by decide

/-- The first undefined number is 6; the last legal `K` is 2048. -/
theorem witness_RdcsrRule :
    (1#24 : BitVec 24) ≠ 0#24 ∧ (1#32 : BitVec 32) ≠ 0#32 ∧ 5 < (6#8 : BitVec 8).toNat ∧
      Cfg.K ⟨.eight, List.replicate 2048 0⟩ ≤ 2048 :=
  ⟨by decide, by decide, by decide, by rw [Cfg.K, List.length_replicate]⟩

/-- The last legal value of `CTRL` is 2, the first illegal one 3; with a run open and with none. -/
theorem witness_WrcsrRule :
    lockedA.err ≠ 0#6 ∧ State.reset.err = 0#6 ∧ (runningA 7 1).err = 0#6 ∧ (1#24 : BitVec 24) ≠ 0#24 ∧
      (1#8 : BitVec 8) ≠ 0#8 ∧ 3 ≤ (3#32 : BitVec 32).toNat ∧ (2#32 : BitVec 32).toNat < 3 ∧
      (runningA 7 1).run.active = true ∧ State.reset.run.active = false := by decide

theorem inv_reset : State.reset.Inv where
  configLegal := by decide
  idleRun := fun _ => ⟨rfl, rfl⟩
  openRun := nofun
  chainDict := nofun
  noResult := fun _ => ⟨rfl, rfl⟩
  result := nofun
  words := nofun

theorem witness_CtrlHoldsALegalValue : State.reset.Inv := inv_reset

theorem witness_HammingDistanceLaws :
    configA.fits 0xFFFF = true ∧ configA.fits 0x0000 = true ∧ configB.fits 0xFFFFFFFFFFFFFFFF = true := by decide

theorem witness_ScanReturnsQuantize : configA.legal = true ∧ Cfg.legal ⟨.four, [0xFFFF]⟩ = true := by decide

/-- The largest tile of 16 bits, and the first value that is none. -/
theorem witness_QtileRule :
    State.reset.cfg.legal = true ∧ lockedA.cfg.legal = true ∧ lockedA.err ≠ 0#6 ∧ State.reset.err = 0#6 ∧
      2 ^ State.reset.cfg.L ≤ (0x10000#64 : BitVec 64).toNat ∧
      (0xFFFF#64 : BitVec 64).toNat < 2 ^ State.reset.cfg.L := by decide

theorem witness_WorkingRegistersAfterAScan :
    State.reset.cfg.legal = true ∧ State.reset.err = 0#6 ∧
      (0xFFFF#64 : BitVec 64).toNat < 2 ^ State.reset.cfg.L := by decide

theorem witness_QtileResponseDependsOnTheTileAlone :
    State.reset.cfg = (runningA 5 1).cfg ∧
      (∃ t, exec (.qtile 0x8001) .reset = .next t ∧ t.rsps = State.reset.rsps ++ [⟨.ok, 0x20000⟩]) ∧
      ∃ t, exec (.qtile 0x8001) (runningA 5 1) = .next t ∧ t.rsps = (runningA 5 1).rsps ++ [⟨.ok, 0x20000⟩] :=
  ⟨rfl, ⟨_, rfl, by decide⟩, ⟨_, rfl, by decide⟩⟩

theorem witness_ChainedQtileIsQtileThenRsym :
    chainedA.cfg.legal = true ∧ chainedA.err = 0#6 ∧ chainedA.chain = true ∧ chainedA.rleMode = .dict ∧
      (0xFFFF#64 : BitVec 64).toNat < 2 ^ chainedA.cfg.L := by decide

/-- Two tiles and `REND` presented to a chained block. -/
def tilesPresented : State :=
  { chainedA with
    inputs := [.command (encode (.qtile 0xFFFF)), .command (encode (.qtile 0)), .command (encode (.rend 0))] }

theorem witness_ChainedTilesAreEncoded :
    tilesPresented.Ready ∧ tilesPresented.err = 0#6 ∧ tilesPresented.chain = true ∧
      tilesPresented.rleMode = .dict ∧ tilesPresented.run.active = false ∧
      (∀ t ∈ [0xFFFF#64, 0#64], t.toNat < 2 ^ tilesPresented.cfg.L) ∧
      tilesPresented.inputs = [0xFFFF#64, 0#64].map (fun t => Event.command (encode (.qtile t))) ++
        .command (encode (.rend 0#64)) :: [] :=
  ⟨⟨by decide, rfl⟩, rfl, rfl, rfl, rfl, List.forall_mem_cons.mpr ⟨by decide, List.forall_mem_singleton.mpr (by decide)⟩, rfl⟩

theorem witness_WorkingRegistersAreUnobservable :
    ∃ t, runCommand 0x10_0000000000008001#72 .reset = .next t ∧ t.qres.valid = true := ⟨_, rfl, rfl⟩

/-- The last index and the first that is out of range, `K = 4`. -/
theorem witness_LookupRule :
    lockedA.err ≠ 0#6 ∧ State.reset.err = 0#6 ∧ (1#48 : BitVec 48) ≠ 0#48 ∧
      State.reset.cfg.K ≤ (4#16 : BitVec 16).toNat ∧ (3#16 : BitVec 16).toNat < State.reset.cfg.K := by decide

/-- The last byte address and the first that is out of range, `K * B = 8`. -/
theorem witness_LookupbRule :
    lockedA.err ≠ 0#6 ∧ State.reset.err = 0#6 ∧ (1#48 : BitVec 48) ≠ 0#48 ∧
      State.reset.cfg.K * State.reset.cfg.B ≤ (8#16 : BitVec 16).toNat ∧
      (7#16 : BitVec 16).toNat < State.reset.cfg.K * State.reset.cfg.B := by decide

theorem witness_CodebookViewsAgree :
    resetB.cfg.legal = true ∧ resetB.err = 0#6 ∧ 4 < resetB.cfg.K ∧ 7 < resetB.cfg.B ∧
      39 < resetB.cfg.K * resetB.cfg.B := by decide

theorem witness_RawAndPackedImages :
    configB.legal = true ∧ cbRead configB 4 = some 0x00000000FFFFFFFF ∧ 63 < configB.L ∧
      configA.legal = true ∧ cbRead configA 0 = some 0x0000 ∧ 0 < configA.L := by decide

theorem witness_CodewordIsItsBytes : configB.legal = true ∧ cbRead configB 4 = some 0x00000000FFFFFFFF := by decide

/-- The largest symbol and the largest count of each mode. -/
theorem witness_PackedWordLayout :
    (2047#11 : BitVec 11).toNat < 2 ^ RleMode.dict.symW ∧ (31#7 : BitVec 7).toNat < 2 ^ RleMode.dict.cntW ∧
      (1#11 : BitVec 11).toNat < 2 ^ RleMode.pixel.symW ∧ (127#7 : BitVec 7).toNat < 2 ^ RleMode.pixel.cntW ∧
      (31#7 : BitVec 7).toNat < 32 ∧ (1#11 : BitVec 11).toNat < 2 := by decide

/-- The largest symbol and the first too large one; each of the four cases of R88, at `cnt = MAXCNT - 1` and
`MAXCNT`. -/
theorem witness_RsymRule :
    lockedA.err ≠ 0#6 ∧ State.reset.err = 0#6 ∧ (1#48 : BitVec 48) ≠ 0#48 ∧
      2 ^ State.reset.rleMode.symW ≤ (2048#16 : BitVec 16).toNat ∧
      (2047#16 : BitVec 16).toNat < 2 ^ State.reset.rleMode.symW ∧ State.reset.run.active = false ∧
      (runningA 3 30).err = 0#6 ∧ (runningA 3 30).run.active = true ∧
      (3#16 : BitVec 16).setWidth 11 = (runningA 3 30).run.sym ∧
      (runningA 3 30).run.cnt.toNat < (runningA 3 30).rleMode.maxCnt ∧
      (3#16 : BitVec 16).setWidth 11 = (runningA 3 31).run.sym ∧
      (runningA 3 31).run.cnt.toNat = (runningA 3 31).rleMode.maxCnt ∧
      (2047#16 : BitVec 16).setWidth 11 ≠ (runningA 3 31).run.sym := by decide

theorem witness_RendRule : lockedA.err ≠ 0#6 ∧ State.reset.err = 0#6 ∧ (1#64 : BitVec 64) ≠ 0#64 := by decide

theorem witness_LongRunsAreSplit : 1 ≤ 200 := by decide

theorem witness_SentinelIsUnique :
    (∀ x ∈ [0#11, 2047#11], x.toNat < 2 ^ RleMode.dict.symW) ∧
      ∀ x ∈ [0#11, 1#11], x.toNat < 2 ^ RleMode.pixel.symW := by simp [RleMode.symW]

theorem witness_DecoderInvertsEncoder :
    (∀ x ∈ [2#11, 2#11, 2#11, 5#11, 5#11, 1#11], x.toNat < 2 ^ RleMode.dict.symW) ∧
      ∀ x ∈ [0#11, 0#11, 0#11, 1#11, 1#11, 0#11], x.toNat < 2 ^ RleMode.pixel.symW := by simp [RleMode.symW]

/-- Symbols 2047 and 0, then `REND`, presented to an idle block. -/
def symbolsPresented : State :=
  { State.reset with
    inputs := [.command (encode (.rsym 0 2047)), .command (encode (.rsym 0 0)), .command (encode (.rend 0))] }

theorem witness_PushedSequenceIsEncoded :
    symbolsPresented.Ready ∧ symbolsPresented.err = 0#6 ∧ symbolsPresented.run.active = false ∧
      (∀ x ∈ [2047#11, 0#11], x.toNat < 2 ^ symbolsPresented.rleMode.symW) ∧
      symbolsPresented.inputs =
        [2047#11, 0#11].map (fun x => Event.command (encode (.rsym 0#48 (x.setWidth 16)))) ++
          .command (encode (.rend 0#64)) :: [] ∧
      (∀ r ∈ symbolsPresented.rsps, r.code = .ok) :=
  ⟨⟨by decide, rfl⟩, rfl, rfl, List.forall_mem_cons.mpr ⟨by decide, List.forall_mem_singleton.mpr (by decide)⟩,
    by decide, nofun⟩

/-- One command of each of the four, answered `OK`. -/
theorem witness_ReadsWriteNoField :
    exec (.nop 0) .reset = .next (respond .ok 0 .reset) ∧
      exec (.rdcsr 0 5 0) .reset = .next (respond .ok 0x40004 .reset) ∧
      exec (.lookup 0 2) .reset = .next (respond .ok 0x0F0F .reset) ∧
      exec (.lookupb 0 2) .reset = .next (respond .ok 0xFF .reset) ∧
      (respond .ok 0 .reset).rsps.getLast?.map Rsp.code = some .ok ∧
      Instr.opcode (.nop 0) ∈ [0x00#8, 0x02#8, 0x11#8, 0x12#8] ∧
      Instr.opcode (.rdcsr 0 5 0) ∈ [0x00#8, 0x02#8, 0x11#8, 0x12#8] ∧
      Instr.opcode (.lookup 0 2) ∈ [0x00#8, 0x02#8, 0x11#8, 0x12#8] ∧
      Instr.opcode (.lookupb 0 2) ∈ [0x00#8, 0x02#8, 0x11#8, 0x12#8] :=
  ⟨rfl, rfl, rfl, rfl, rfl, by decide, by decide, by decide, by decide⟩

theorem witness_WritesChangeOnlyTheirFields :
    (∃ t, exec (.wrcsr 0 0 2) .reset = .next t ∧ t.rsps.getLast?.map Rsp.code = some .ok) ∧
      (∃ t, exec (.rsym 0 2047) .reset = .next t) ∧ (∃ t, exec (.rend 0) .reset = .next t) ∧
      (∃ t, exec (.qtile 0xFFFF) .reset = .next t) ∧ State.reset.chain = false ∧
      Instr.opcode (.wrcsr 0 0 2) ≠ 0x01#8 :=
  ⟨⟨_, rfl, rfl⟩, ⟨_, rfl⟩, ⟨_, rfl⟩, ⟨_, rfl⟩, rfl, by decide⟩

/-- Each of the two flags set and cleared. -/
theorem witness_FlagsAreSetAndClearedByTheirCommands :
    (∃ t, exec (.qtile 0) .reset = .next t ∧ State.reset.qres.valid = false ∧ t.qres.valid = true) ∧
      (∃ t, exec (.srst 0) { State.reset with qres := ⟨true, 0, 0⟩ } = .next t ∧ t.qres.valid = false) ∧
      (∃ t, exec (.rsym 0 1) .reset = .next t ∧ State.reset.run.active = false ∧ t.run.active = true) ∧
      (∃ t, exec (.rend 0) (runningA 1 1) = .next t ∧ (runningA 1 1).run.active = true ∧ t.run.active = false) :=
  ⟨⟨_, rfl, rfl, rfl⟩, ⟨_, rfl, rfl⟩, ⟨_, rfl, rfl, rfl⟩, ⟨_, rfl, rfl, rfl⟩⟩

theorem witness_HardResetRule :
    (awaiting .hardReset lockedA).cfg.legal = true ∧ (awaiting .hardReset lockedA).inputs = [.hardReset] :=
  ⟨by decide, rfl⟩

theorem witness_HardResetDuringACommand :
    (awaiting (.hardResetDuring 0x21_0000000000000000#72 1) (runningA 3 2)).Ready ∧
      (awaiting (.hardResetDuring 0x21_0000000000000000#72 1) (runningA 3 2)).inputs =
        [.hardResetDuring 0x21_0000000000000000#72 1] := ⟨⟨by decide, rfl⟩, rfl⟩

theorem witness_SrstAndHardResetAgree :
    (awaiting .hardReset lockedA).Ready ∧ (awaiting .hardReset lockedA).inputs = [.hardReset] :=
  ⟨⟨by decide, rfl⟩, rfl⟩

theorem witness_HistoriesOnlyGrow : ∃ t, step (present 0x21_0000000000000000#72 .reset) = .next t := ⟨_, rfl⟩

theorem witness_InvariantsHoldAfterReset : configA.legal = true ∧ configB.legal = true := by decide

/-- A block with an open run and a word in `enc`, to which a command is presented. -/
def running : State := present 0x20_0000000000000005#72 { runningA 3 31 with enc := [.w16 0x0043] }

theorem witness_EveryStepKeepsTheInvariants : running.Inv ∧ ∃ t, step running = .next t ∧ t.run.sym = 5 :=
  ⟨{ configLegal := by decide, idleRun := nofun, openRun := fun _ => by decide, chainDict := nofun,
     noResult := fun _ => ⟨rfl, rfl⟩, result := nofun,
     words := List.forall_mem_singleton.mpr (by decide) }, _, rfl, rfl⟩

theorem witness_ModeIsFixedWhileARunIsOpen :
    ∃ t, step (present 0x20_0000000000000003#72 (runningA 3 1)) = .next t ∧
      (runningA 3 1).run.active = true ∧ t.run.active = true := ⟨_, rfl, rfl, rfl⟩

theorem witness_TileElementOrder :
    (List.replicate 16 true).length = configA.L ∧ 0 < configA.L ∧ 15 < configA.L ∧
      (List.replicate 64 false).length = configB.L ∧ 63 < configB.L := by decide

/-- `REND` presented to a block with an open run, and the same cut short after its second word. -/
def ending (e : Event) : State := awaiting e (runningA 3 31)

theorem inv_ending (e : Event) : (ending e).Inv where
  configLegal := inv_reset.configLegal
  idleRun := nofun
  openRun := fun _ => (by decide : 1 ≤ 31 ∧ 31 ≤ RleMode.dict.maxCnt ∧ 3 < 2 ^ RleMode.dict.symW)
  chainDict := nofun
  noResult := fun _ => ⟨rfl, rfl⟩
  result := nofun
  words := nofun

theorem witness_OnlyRendAppendsASentinel :
    ((ending (.command (encode (.rend 0)))).Inv ∧
      ∃ t, step (ending (.command (encode (.rend 0)))) = .next t ∧ t.enc = [] ++ [.w16 0x007F, .w16 0]) ∧
    ((ending (.hardResetDuring (encode (.rend 0)) 2)).Inv ∧
      ∃ t, step (ending (.hardResetDuring (encode (.rend 0)) 2)) = .next t ∧
        t.enc = [] ++ [.w16 0x007F, .w16 0]) ∧
    EncWord.w16 0 ∈ [EncWord.w16 0x007F, .w16 0] ∧ (EncWord.w16 0).value = 0 :=
  ⟨⟨inv_ending _, _, rfl, rfl⟩, ⟨inv_ending _, _, rfl, rfl⟩, by decide, rfl⟩

/-- A run that pushes nothing, and one that pushes a symbol. -/
theorem witness_RunsOfCommands :
    configA.legal = true ∧ anyPush [encode (.qtile 0), encode (.rend 0)] (State.resetWith configA) = false ∧
      anyPush [encode (.wrcsr 0 0 2), encode (.qtile 0)] (State.resetWith configA) = true := by decide

/-- Not complete: a run left open, and a response that is not `OK`. -/
theorem witness_CompleteRuns :
    configA.legal = true ∧ RunIsComplete configA [encode (.rsym 0 5), encode (.rend 0)] ∧
      (∃ t, runCommands [encode (.rsym 0 5), encode (.rend 0)] (State.resetWith configA) = .next t ∧
        (2047#11 : BitVec 11).toNat < 2 ^ t.rleMode.symW) ∧
      (∃ t, runCommands [encode (.rsym 0 5)] (State.resetWith configA) = .next t ∧ t.run.active = true) ∧
      ∃ t, runCommands [encode (.lookup 0 4)] (State.resetWith configA) = .next t ∧
        ⟨.error .indexRange, 0⟩ ∈ t.rsps ∧ Code.error .indexRange ≠ .ok :=
  ⟨by decide, ⟨_, rfl, by decide, rfl, fun _ => ⟨_, rfl, rfl⟩⟩, ⟨_, rfl, by decide⟩, ⟨_, rfl, rfl⟩,
    _, rfl, by decide, by decide⟩

theorem witness_ScanLoopInvariant : configA.legal = true ∧ 0 ≤ configA.K ∧ 4 ≤ configA.K := by decide

/-- The last pixel of the last tile of P6's frame, and the first column to the right of it. -/
theorem witness_RebuiltFrame :
    1 < 2 ∧ 3 < configA.side ∧ ([0, 0, 2, 1] : List Nat)[1 * 2 + 1]? = some 1 ∧ cbRead configA 1 = some 0xFFFF ∧
      2 * configA.side ≤ 8 := by decide

end Sys2Proof.Tests
end

/-! PROOFS. Which opcodes are commands, and where the operand fields stand (spec/30_encoding.md R52, R55): O2, O3. -/

namespace Sys2Proof.Machine

/-! ### Which words are commands -/

/-- A word is a command exactly when its opcode is one of the nine (R54, R55). -/
theorem decode_isOk_iff (cw : CmdWord) : (∃ i, decode cw = .ok i) ↔ cw.op ∈ definedOpcodes := by
  constructor
  · rintro ⟨i, h⟩
    rw [← (decode_eq_ok h).1]
    exact opcode_mem i
  · intro hop
    cases h : decode cw with
    | ok i => exact ⟨i, rfl⟩
    | error e => exact absurd hop (decode_eq_error h).2

/-- A reserved opcode is answered by the dispatch itself (R53 step 2). -/
theorem runCommand_of_reserved {cw : CmdWord} (hop : cw.op ∉ definedOpcodes) (s : State) :
    runCommand cw s = .next (undefinedOp s) := by
  rcases runCommand_cases cw s with ⟨i, hi, -, -⟩ | ⟨-, h⟩
  · exact absurd ((decode_isOk_iff cw).mp ⟨i, hi⟩) hop
  · exact h

/-- A reserved opcode on a block that is not locked (R55). -/
theorem runCommand_of_reserved_unlocked {cw : CmdWord} {s : State} (hop : cw.op ∉ definedOpcodes)
    (hs : s.err = 0#6) : runCommand cw s = .next (raise .illegalOp s) := by
  rw [runCommand_of_reserved hop, undefinedOp_of_unlocked hs]

/-- Of the 256 opcode values 247 are reserved (R55): a finite count, too long for `decide` outside the kernel. -/
theorem length_reservedOpcodes :
    ((List.range 256).filter fun n => decide (BitVec.ofNat 8 n ∉ definedOpcodes)).length = 247 := by
  decide +kernel

/-- Settles O2: decoding fails exactly off the nine opcodes, and there the dispatch raises `ILLEGAL_OP`; the count and
the two words the rule names are computed. -/
theorem reservedOpcodesAreIllegal : Obligations.ReservedOpcodesAreIllegal := by
  unfold Obligations.ReservedOpcodesAreIllegal
  exact ⟨decode_isOk_iff, fun cw s hop hs => runCommand_of_reserved_unlocked hop hs, length_reservedOpcodes,
    by decide, by decide⟩

/-! ### The operand fields -/

/-- The converse of `decode_eq_ok`: a word with the opcode and the operand of a command decodes to it. -/
theorem decode_of_parts {cw : CmdWord} {i : Instr} (hop : cw.op = i.opcode) (harg : cw.arg = i.operand) :
    decode cw = .ok i := by
  cases i <;> simp [decode, hop, harg, Instr.opcode, Instr.operand]

/-- Format C: the operand is its three fields, as bits of the word (R51). -/
theorem arg_eq_formatC (cw : CmdWord) :
    cw.arg = cw.extractLsb' 40 24 ++ cw.extractLsb' 32 8 ++ cw.extractLsb' 0 32 := by
  rw [← argMbzC_arg, ← argCsr_arg, ← argVal_arg, append_argC]

/-- Format I: the operand is its two fields, as bits of the word (R51). -/
theorem arg_eq_formatI (cw : CmdWord) : cw.arg = cw.extractLsb' 16 48 ++ cw.extractLsb' 0 16 := by
  rw [← argMbzI_arg, ← argImm_arg, append_argI]

/-! ### A "must be zero" bit -/

/-- The lock lets through the opcodes of `SRST` and `RDCSR` and no other (R53 step 1). -/
theorem exempt_iff_opcode (i : Instr) : i.exempt = true ↔ i.opcode = 0x01#8 ∨ i.opcode = 0x02#8 := by
  cases i <;> simp [Instr.exempt, Instr.opcode]

/-- A word with a "must be zero" bit set raises `BAD_OPERAND` where the lock does not stop it (R52, R53 step 3). -/
theorem runCommand_of_illFormed {cw : CmdWord} {i : Instr} {s : State} (hi : decode cw = .ok i)
    (hw : i.wellFormed s.cfg = false) (hs : s.err = 0#6 ∨ cw.op = 0x01#8 ∨ cw.op = 0x02#8) :
    runCommand cw s = .next (raise .badOperand s) := by
  have hpass : s.err = 0#6 ∨ i.exempt = true := by
    rwa [exempt_iff_opcode, (decode_eq_ok hi).1]
  calc runCommand cw s = exec i s := by rw [runCommand, hi]
    _ = .next (raise .badOperand s) := exec_of_illFormed hpass hw

/-- Settles O3: a word's fields put together are its operand, so the word decodes to the command of those fields; the
"must be zero" check comes right after the lock. -/
theorem operandFieldsAndMustBeZeroBits : Obligations.OperandFieldsAndMustBeZeroBits := by
  unfold Obligations.OperandFieldsAndMustBeZeroBits
  refine ⟨fun cw => ⟨?nop, ?srst, ?rdcsr, ?wrcsr, ?qtile, ?lookup, ?lookupb, ?rsym, ?rend⟩,
    fun cw i s hi hw hs => runCommand_of_illFormed hi hw hs⟩
  case nop | srst | qtile | rend => exact fun hop => decode_of_parts hop rfl
  case rdcsr | wrcsr => exact fun hop => decode_of_parts hop (arg_eq_formatC cw)
  case lookup | lookupb | rsym => exact fun hop => decode_of_parts hop (arg_eq_formatI cw)

end Sys2Proof.Machine

/-! PROOFS. The quantizer: the scan is `Quantize`, and QTILE (spec/40_tile_quantizer.md R74 to R78): O21, O22, O24. -/

namespace Sys2Proof.Machine

/-! ### `Quantize` -/

section
variable {c : Cfg} {t : Data} {i i' d d' : Nat}

/-- A tile has one nearest codeword, so `Quantize` is a function (R70). -/
theorem Quantizes.unique (h : Quantizes c t i d) (h' : Quantizes c t i' d') : i = i' ∧ d = d' := by
  obtain ⟨⟨w, hw, hd⟩, hleast, hfirst⟩ := h
  obtain ⟨⟨w', hw', hd'⟩, hleast', hfirst'⟩ := h'
  have hdist : d = d' := Nat.le_antisymm (hd' ▸ hleast i' w' hw') (hd ▸ hleast' i w hw)
  have hle : i ≤ i' := hfirst i' w' hw' (hd'.trans hdist.symm)
  have hge : i' ≤ i := hfirst' i w hw (hd.trans hdist)
  exact ⟨Nat.le_antisymm hle hge, hdist⟩

/-- The index is one of the codebook (R78). -/
theorem Quantizes.lt_K (h : Quantizes c t i d) : i < c.K := by
  obtain ⟨⟨w, hw, -⟩, -, -⟩ := h
  exact lt_K_of_cbRead hw

/-- The distance is one of two `L`-bit values (R71). -/
theorem Quantizes.le_L (hc : c.legal = true) (ht : c.fits t = true) (h : Quantizes c t i d) : d ≤ c.L := by
  obtain ⟨⟨w, hw, rfl⟩, -, -⟩ := h
  exact hd_le_L ht (fits_of_cbRead hc hw)

/-- The loop invariant of R74 after all `K` comparisons is the definition of `Quantize`. -/
theorem ScanInv.quantizes {r : ScanRegs} (hK : 1 ≤ c.K) (h : ScanInv c t c.K r) :
    Quantizes c t r.bestIdx.toNat r.bestDist.toNat := by
  obtain ⟨-, hbest⟩ := h.found hK
  exact ⟨hbest, fun j w hw => h.least j (lt_K_of_cbRead hw) w hw,
    fun j w hw => h.first j (lt_K_of_cbRead hw) w hw⟩

/-- The scan ends at `Quantize` of its tile (R74). -/
theorem quantizes_scanTile (hc : c.legal = true) (t : Data) :
    Quantizes c t (scanTile c t).bestIdx.toNat (scanTile c t).bestDist.toNat :=
  (scanInv_scanTile hc t).quantizes ((legal_iff c).mp hc).1

end

/-- Settles O21: the scan ends at a pair that meets R70 (`quantizes_scanTile`), and only one pair does. -/
theorem scanReturnsQuantize : Obligations.ScanReturnsQuantize := by
  unfold Obligations.ScanReturnsQuantize
  intro c t i d hc
  have hscan := quantizes_scanTile hc t
  constructor
  · exact fun h => hscan.unique h
  · rintro ⟨rfl, rfl⟩
    exact hscan

/-! ### `QTILE` -/

section
variable {arg : BitVec 64} {s : State}

/-- The lock comes first (R53 step 1, R123). -/
theorem exec_qtile_of_locked (hs : s.err ≠ 0#6) : exec (.qtile arg) s = .next (answerLocked s) :=
  exec_of_locked hs rfl

/-- A tile with a bit above `L` (R75). -/
theorem exec_qtile_of_not_fits (hs : s.err = 0#6) (h : s.cfg.fits arg = false) :
    exec (.qtile arg) s = .next (raise .badOperand s) :=
  exec_of_illFormed (.inl hs) h

/-- An `L`-bit tile on an unlocked block runs the command's own rule (R53 step 4). -/
theorem exec_qtile_of_fits (hs : s.err = 0#6) (h : s.cfg.fits arg = true) :
    exec (.qtile arg) s = .next (qtileBody arg s) :=
  exec_of_passed (.inl hs) h

/-- The result word as a number: the distance above the index (R76). -/
theorem resultData_eq_ofNat (idx : BitVec 11) (dist : BitVec 7) :
    resultData idx dist = BitVec.ofNat 64 (idx.toNat + dist.toNat * 2 ^ 16) := by
  rw [Nat.add_comm, ← toNat_resultData, BitVec.ofNat_toNat, BitVec.setWidth_eq]

/-- The chained push is of the index just found, under the `chain` and the run from before the scan (R75, R81). -/
theorem chainPush_quantizeInto (t : Data) (s : State) :
    chainPush (quantizeInto t s) =
      if s.chain then rlePush (scanTile s.cfg t).bestIdx (quantizeInto t s) else quantizeInto t s := rfl

/-- The own rule of `QTILE` in the numbers of the scan's result (R75, R76). -/
theorem qtileBody_eq (t : Data) (s : State) :
    qtileBody t s =
      respond .ok (BitVec.ofNat 64 ((scanTile s.cfg t).bestIdx.toNat + (scanTile s.cfg t).bestDist.toNat * 2 ^ 16))
        (if s.chain then rlePush (scanTile s.cfg t).bestIdx (quantizeInto t s) else quantizeInto t s) := by
  rw [qtileBody, resultData_eq_ofNat, chainPush_quantizeInto]

theorem qtileBody_rsps (t : Data) (s : State) :
    (qtileBody t s).rsps = s.rsps ++ [⟨.ok, resultData (scanTile s.cfg t).bestIdx (scanTile s.cfg t).bestDist⟩] := by
  simp [qtileBody]

/-- An `OK` response of `QTILE` is the scan's result, read from the configuration and the tile (R76, R77). -/
theorem rsp_of_qtile_ok {t : State} {r : Rsp} (h : exec (.qtile arg) s = .next t) (ht : t.rsps = s.rsps ++ [r])
    (hr : r.code = .ok) :
    r = ⟨.ok, resultData (scanTile s.cfg arg).bestIdx (scanTile s.cfg arg).bestDist⟩ := by
  by_cases hs : s.err = 0#6
  · cases hfit : s.cfg.fits arg with
    | true =>
      rw [exec_qtile_of_fits hs hfit] at h
      cases h
      rw [qtileBody_rsps] at ht
      exact (List.singleton_inj.mp (List.append_cancel_left ht)).symm
    | false =>
      rw [exec_qtile_of_not_fits hs hfit] at h
      cases h
      obtain rfl : ⟨.error .badOperand, 0#64⟩ = r := by simpa using ht
      cases hr
  · rw [exec_qtile_of_locked hs] at h
    cases h
    obtain rfl : ⟨.locked, 0#64⟩ = r := by simpa using ht
    cases hr

end

/-- Settles O22: the lock, then the operand check, then the scan, whose result is `Quantize` of the tile and within
the widths of the result registers. -/
theorem qtileRule : Obligations.QtileRule := by
  unfold Obligations.QtileRule
  intro arg s hc
  refine ⟨exec_qtile_of_locked, fun hs hwide => ?_, fun hs hlt => ?_⟩
  · exact exec_qtile_of_not_fits hs (by simpa [Cfg.fits] using hwide)
  · have hfit : s.cfg.fits arg = true := (fits_iff _ _).mpr hlt
    have hq := quantizes_scanTile hc arg
    refine ⟨_, _, scanTile s.cfg arg, quantizeInto arg s, hq, hq.lt_K, hq.le_L hc hfit, ?_, ?_⟩
    · rw [BitVec.ofNat_toNat, BitVec.setWidth_eq, BitVec.ofNat_toNat, BitVec.setWidth_eq, quantizeInto]
    · rw [exec_qtile_of_fits hs hfit, qtileBody_eq, BitVec.ofNat_toNat, BitVec.setWidth_eq]

/-- Settles O24: both responses are the scan's result under the one configuration. -/
theorem qtileResponseDependsOnTheTileAlone : Obligations.QtileResponseDependsOnTheTileAlone := by
  unfold Obligations.QtileResponseDependsOnTheTileAlone
  intro arg s s' t t' r r' hcfg h h' ht ht' hr hr'
  rw [rsp_of_qtile_ok h ht hr, rsp_of_qtile_ok h' ht' hr', hcfg]

end Sys2Proof.Machine

/-! PROOFS. The encoder on a sequence: the decoder inverts it, its closed form, the sentinel
(spec/41_run_length_encoder.md R93, R95, R97): O37, O38, O39. -/

namespace Sys2Proof.Machine

/-! ### One push onto an open run -/

section
variable {m : RleMode} {r : Run} {x : BitVec 11}

/-- On an open run `RlePush` has two outcomes (R88): the run grows, or its word goes out and a run of the new symbol
begins at 1. The full word of an overflow is the word of the open run. -/
theorem runPush_open_cases (h : r.active = true) (hc : r.cnt.toNat ≤ m.maxCnt) :
    (x = r.sym ∧ r.cnt.toNat < m.maxCnt ∧ runPush m r x = (⟨true, x, r.cnt + 1#7⟩, [])) ∨
    ((x = r.sym → r.cnt.toNat = m.maxCnt) ∧ runPush m r x = (⟨true, x, 1#7⟩, [pack m r.sym r.cnt])) := by
  by_cases hx : x = r.sym
  · rcases Nat.lt_or_eq_of_le hc with hlt | hfull
    · exact .inl ⟨hx, hlt, by rw [runPush_continue h hx hlt, hx]⟩
    · have hcnt : BitVec.ofNat 7 m.maxCnt = r.cnt := by rw [← hfull, BitVec.ofNat_toNat, BitVec.setWidth_eq]
      exact .inr ⟨fun _ => hfull, by rw [runPush_overflow h hx hfull, hcnt, hx]⟩
  · exact .inr ⟨fun hx' => absurd hx' hx, runPush_change h hx⟩

end

/-! ### Encoding the rest of a sequence -/

/-- The words that come out when the symbols of `seq` are pushed onto the run `r` and the sequence is ended. -/
def encodeFrom (m : RleMode) (r : Run) (seq : List (BitVec 11)) : List EncWord :=
  (pushAll m r seq).2 ++ runEnd m (pushAll m r seq).1

theorem rleEncode_eq_encodeFrom (m : RleMode) (seq : List (BitVec 11)) :
    rleEncode m seq = encodeFrom m Run.idle seq := rfl

@[simp] theorem encodeFrom_nil (m : RleMode) (r : Run) : encodeFrom m r [] = runEnd m r := rfl

theorem encodeFrom_cons (m : RleMode) (r : Run) (x : BitVec 11) (xs : List (BitVec 11)) :
    encodeFrom m r (x :: xs) = (runPush m r x).2 ++ encodeFrom m (runPush m r x).1 xs := by
  simp [encodeFrom, pushAll_cons]

/-- The first symbol of a sequence opens a run of length 1 and emits nothing (R88). -/
theorem rleEncode_cons (m : RleMode) (x : BitVec 11) (xs : List (BitVec 11)) :
    rleEncode m (x :: xs) = encodeFrom m ⟨true, x, 1#7⟩ xs := by
  rw [rleEncode_eq_encodeFrom, encodeFrom_cons, runPush_first rfl, List.nil_append]

@[simp] theorem encodeFrom_nil_open (m : RleMode) (y : BitVec 11) (c : BitVec 7) :
    encodeFrom m ⟨true, y, c⟩ [] = [pack m y c, sentinel m] := rfl

theorem toNat_succ_of_lt_maxCnt {m : RleMode} {c : BitVec 7} (h : c.toNat < m.maxCnt) :
    (c + 1#7).toNat = c.toNat + 1 := cnt_succ (r := ⟨true, 0#11, c⟩) h

/-- Two outcomes again, for what is emitted in the end: the open run grows, or its word is the next one. -/
theorem encodeFrom_cons_open {m : RleMode} {c : BitVec 7} (hc : c.toNat ≤ m.maxCnt) (y x : BitVec 11)
    (xs : List (BitVec 11)) :
    (x = y ∧ c.toNat < m.maxCnt ∧ encodeFrom m ⟨true, y, c⟩ (x :: xs) = encodeFrom m ⟨true, x, c + 1#7⟩ xs) ∨
    ((x = y → c.toNat = m.maxCnt) ∧
      encodeFrom m ⟨true, y, c⟩ (x :: xs) = pack m y c :: encodeFrom m ⟨true, x, 1#7⟩ xs) := by
  rcases runPush_open_cases (r := ⟨true, y, c⟩) (x := x) rfl hc with ⟨hx, hlt, hpush⟩ | ⟨hx, hpush⟩
  · exact .inl ⟨hx, hlt, by rw [encodeFrom_cons, hpush, List.nil_append]⟩
  · exact .inr ⟨hx, by rw [encodeFrom_cons, hpush, List.singleton_append]⟩

/-! ### Decoding -/

/-- What the decoder makes of the words still to come from an open run: the symbols the run holds, then the rest. -/
theorem rleDecode_encodeFrom {m : RleMode} {seq : List (BitVec 11)} (hseq : ∀ x ∈ seq, x.toNat < 2 ^ m.symW) :
    ∀ (y : BitVec 11) (c : BitVec 7), y.toNat < 2 ^ m.symW → 1 ≤ c.toNat → c.toNat ≤ m.maxCnt →
      rleDecode m (encodeFrom m ⟨true, y, c⟩ seq) = some (List.replicate c.toNat y ++ seq) := by
  induction seq with
  | nil =>
    intro y c hy h1 hc
    rw [encodeFrom_nil_open, rleDecode_pack m hy h1 hc, rleDecode_sentinel, Option.map_some]
  | cons x xs ih =>
    intro y c hy h1 hc
    obtain ⟨hx, hxs⟩ := List.forall_mem_cons.mp hseq
    rcases encodeFrom_cons_open hc y x xs with ⟨rfl, hlt, henc⟩ | ⟨-, henc⟩
    · have hcnt := toNat_succ_of_lt_maxCnt hlt
      rw [henc, ih hxs _ _ hx (by omega) (by omega), hcnt, List.replicate_succ', List.append_assoc,
        List.singleton_append]
    · rw [henc, rleDecode_pack m hy h1 hc, ih hxs x 1#7 hx le_rfl (maxCnt_pos m), Option.map_some]
      rfl

/-- Settles O39: the first symbol opens a run of length 1, and decoding from an open run gives its symbols and the
rest of the sequence (`rleDecode_encodeFrom`). -/
theorem decoderInvertsEncoder : Obligations.DecoderInvertsEncoder := by
  unfold Obligations.DecoderInvertsEncoder
  intro m seq hseq
  cases seq with
  | nil => exact rleDecode_sentinel m []
  | cons x xs =>
    obtain ⟨hx, hxs⟩ := List.forall_mem_cons.mp hseq
    rw [rleEncode_cons, rleDecode_encodeFrom hxs x 1#7 hx le_rfl (maxCnt_pos m)]
    rfl

/-! ### Runs -/

/-- A run of `n` symbols `x` put before a list of runs: one run with the first of them if the symbols agree. -/
def consRun (x : BitVec 11) (n : Nat) : List (BitVec 11 × Nat) → List (BitVec 11 × Nat)
  | [] => [(x, n)]
  | (y, k) :: rest => if x = y then (y, k + n) :: rest else (x, n) :: (y, k) :: rest

section
variable {x y : BitVec 11} {n k : Nat} {runs : List (BitVec 11 × Nat)}

/-- `consRun` builds the maximal runs of a sequence, one symbol at a time (R93). -/
theorem maximalRuns_cons_eq (x : BitVec 11) (xs : List (BitVec 11)) :
    maximalRuns (x :: xs) = consRun x 1 (maximalRuns xs) := by
  rw [maximalRuns]
  cases maximalRuns xs <;> rfl

theorem consRun_same (x : BitVec 11) (n k : Nat) (runs : List (BitVec 11 × Nat)) :
    consRun x n ((x, k) :: runs) = (x, k + n) :: runs := if_pos rfl

theorem consRun_of_ne (h : x ≠ y) : consRun x n ((y, k) :: runs) = (x, n) :: (y, k) :: runs := if_neg h

/-- The first run of `consRun x n runs` is of the symbol `x`. -/
theorem exists_consRun_eq (x : BitVec 11) (n : Nat) (runs : List (BitVec 11 × Nat)) :
    ∃ k rest, consRun x n runs = (x, k + n) :: rest := by
  match runs with
  | [] => exact ⟨0, [], by rw [Nat.zero_add]; rfl⟩
  | (y, k) :: rest =>
    by_cases h : x = y
    · subst h
      exact ⟨k, rest, consRun_same x n k rest⟩
    · exact ⟨0, (y, k) :: rest, by rw [consRun_of_ne h, Nat.zero_add]⟩

/-- Two runs of one symbol put before a list are one. -/
theorem consRun_consRun (x : BitVec 11) (n k : Nat) (runs : List (BitVec 11 × Nat)) :
    consRun x n (consRun x k runs) = consRun x (k + n) runs := by
  match runs with
  | [] => exact consRun_same x n k []
  | (y, j) :: rest =>
    by_cases h : x = y
    · subst h
      simp only [consRun_same, Nat.add_assoc]
    · simp only [consRun_of_ne h, consRun_same]

/-- The runs still concatenate to the sequence. -/
theorem flatMap_replicate_consRun (x : BitVec 11) (n : Nat) (runs : List (BitVec 11 × Nat)) :
    ((consRun x n runs).flatMap fun p => List.replicate p.2 p.1) =
      List.replicate n x ++ runs.flatMap fun p => List.replicate p.2 p.1 := by
  match runs with
  | [] => rfl
  | (y, k) :: rest =>
    by_cases h : x = y
    · subst h
      simp only [consRun_same, List.flatMap_cons, Nat.add_comm k n, List.replicate_add, List.append_assoc]
    · rw [consRun_of_ne h, List.flatMap_cons]

/-- Neighbours still differ. -/
theorem isChain_consRun (x : BitVec 11) (n : Nat) (h : List.IsChain (fun p q => p.1 ≠ q.1) runs) :
    List.IsChain (fun p q : BitVec 11 × Nat => p.1 ≠ q.1) (consRun x n runs) := by
  match runs with
  | [] => exact List.isChain_singleton _
  | (y, k) :: rest =>
    by_cases hx : x = y
    · subst hx
      rw [consRun_same]
      cases rest with
      | nil => exact List.isChain_singleton _
      | cons q rest => exact List.isChain_cons_cons.mpr (List.isChain_cons_cons.mp h)
    · rw [consRun_of_ne hx]
      exact List.isChain_cons_cons.mpr ⟨hx, h⟩

/-- No run is empty. -/
theorem one_le_of_mem_consRun (hn : 1 ≤ n) (h : ∀ p ∈ runs, 1 ≤ p.2) : ∀ p ∈ consRun x n runs, 1 ≤ p.2 := by
  match runs with
  | [] => exact List.forall_mem_singleton.mpr hn
  | (y, k) :: rest =>
    obtain ⟨hk, hrest⟩ := List.forall_mem_cons.mp h
    by_cases hx : x = y
    · subst hx
      rw [consRun_same]
      exact List.forall_mem_cons.mpr ⟨Nat.le_add_right_of_le hk, hrest⟩
    · rw [consRun_of_ne hx]
      exact List.forall_mem_cons.mpr ⟨hn, h⟩

end

section
variable (seq : List (BitVec 11))

theorem flatMap_replicate_maximalRuns :
    ((maximalRuns seq).flatMap fun p => List.replicate p.2 p.1) = seq := by
  induction seq with
  | nil => rfl
  | cons x xs ih => rw [maximalRuns_cons_eq, flatMap_replicate_consRun, ih]; rfl

theorem isChain_maximalRuns : List.IsChain (fun p q => p.1 ≠ q.1) (maximalRuns seq) := by
  induction seq with
  | nil => exact List.isChain_nil
  | cons x xs ih => rw [maximalRuns_cons_eq]; exact isChain_consRun x 1 ih

theorem one_le_of_mem_maximalRuns : ∀ p ∈ maximalRuns seq, 1 ≤ p.2 := by
  induction seq with
  | nil => exact List.forall_mem_nil _
  | cons x xs ih => rw [maximalRuns_cons_eq]; exact one_le_of_mem_consRun le_rfl ih

/-- The symbol of a maximal run is one of the sequence's. -/
theorem mem_of_mem_maximalRuns {p : BitVec 11 × Nat} (hp : p ∈ maximalRuns seq) : p.1 ∈ seq := by
  have hpos := one_le_of_mem_maximalRuns seq p hp
  rw [← flatMap_replicate_maximalRuns seq]
  exact List.mem_flatMap.mpr ⟨p, hp, List.mem_replicate.mpr ⟨by omega, rfl⟩⟩

end

/-! ### The words of the runs -/

/-- The words of a list of runs, in order (R93). -/
def wordsOfRuns (m : RleMode) (runs : List (BitVec 11 × Nat)) : List EncWord :=
  runs.flatMap fun p => runWords m p.1 p.2

theorem wordsOfRuns_cons (m : RleMode) (x : BitVec 11) (n : Nat) (runs : List (BitVec 11 × Nat)) :
    wordsOfRuns m ((x, n) :: runs) = runWords m x n ++ wordsOfRuns m runs := rfl

/-- The closed form of R93 is the words of the maximal runs and the sentinel. -/
theorem rleClosedForm_eq (m : RleMode) (seq : List (BitVec 11)) :
    rleClosedForm m seq = wordsOfRuns m (maximalRuns seq) ++ [sentinel m] := rfl

/-- `ceil(n / MAXCNT)` words for a run of `n` symbols (R92). -/
theorem length_runWords (m : RleMode) (x : BitVec 11) (n : Nat) :
    (runWords m x n).length = (n + m.maxCnt - 1) / m.maxCnt := by
  have hrest : (runWords m x n).length = n / m.maxCnt + if n % m.maxCnt = 0 then 0 else 1 := by
    rw [runWords, List.length_append, List.length_replicate, apply_ite List.length]
    rfl
  rw [hrest]
  cases m with
  | dict => rw [show RleMode.dict.maxCnt = 31 from rfl]; split <;> omega
  | pixel => rw [show RleMode.pixel.maxCnt = 127 from rfl]; split <;> omega

/-- The word that goes out when a symbol `x` opens a new run: the run before it has ended, or its count is full
(R92). -/
theorem wordsOfRuns_consRun (m : RleMode) {x y : BitVec 11} {n : Nat} (h1 : 1 ≤ n) (hn : n ≤ m.maxCnt)
    (h : x = y → n = m.maxCnt) (runs : List (BitVec 11 × Nat)) :
    wordsOfRuns m (consRun y n (consRun x 1 runs)) =
      pack m y (BitVec.ofNat 7 n) :: wordsOfRuns m (consRun x 1 runs) := by
  obtain ⟨k, rest, hfirst⟩ := exists_consRun_eq x 1 runs
  rw [hfirst]
  by_cases hx : x = y
  · subst hx
    rw [h rfl, consRun_same, wordsOfRuns_cons, wordsOfRuns_cons, runWords_add_maxCnt, List.cons_append]
  · rw [consRun_of_ne (Ne.symm hx), wordsOfRuns_cons, runWords_of_le m y h1 hn, List.singleton_append]

/-! ### The closed form -/

/-- From an open run: the words of the runs still to come, the open one put before those of the rest (R93). -/
theorem encodeFrom_eq_wordsOfRuns {m : RleMode} {seq : List (BitVec 11)} :
    ∀ (y : BitVec 11) (c : BitVec 7), 1 ≤ c.toNat → c.toNat ≤ m.maxCnt →
      encodeFrom m ⟨true, y, c⟩ seq =
        wordsOfRuns m (consRun y c.toNat (maximalRuns seq)) ++ [sentinel m] := by
  induction seq with
  | nil =>
    intro y c h1 hc
    rw [encodeFrom_nil_open, maximalRuns, consRun, wordsOfRuns, List.flatMap_singleton, runWords_of_le m y h1 hc,
      BitVec.ofNat_toNat, BitVec.setWidth_eq, List.singleton_append]
  | cons x xs ih =>
    intro y c h1 hc
    rw [maximalRuns_cons_eq]
    rcases encodeFrom_cons_open hc y x xs with ⟨rfl, hlt, henc⟩ | ⟨hfull, henc⟩
    · have hcnt := toNat_succ_of_lt_maxCnt hlt
      rw [henc, ih _ _ (by omega) (by omega), consRun_consRun, hcnt, Nat.add_comm 1]
    · rw [henc, ih x 1#7 le_rfl (maxCnt_pos m), wordsOfRuns_consRun m h1 hc hfull, BitVec.ofNat_toNat,
        BitVec.setWidth_eq]
      rfl

/-- The closed form of the encoder (R93). -/
theorem rleEncode_eq_closedForm (m : RleMode) (seq : List (BitVec 11)) : rleEncode m seq = rleClosedForm m seq := by
  cases seq with
  | nil => rfl
  | cons x xs =>
    rw [rleEncode_cons, encodeFrom_eq_wordsOfRuns x 1#7 le_rfl (maxCnt_pos m), rleClosedForm_eq, maximalRuns_cons_eq]
    rfl

theorem length_rleClosedForm (m : RleMode) (seq : List (BitVec 11)) :
    (rleClosedForm m seq).length = 1 + ((maximalRuns seq).map fun p => (p.2 + m.maxCnt - 1) / m.maxCnt).sum := by
  rw [rleClosedForm, List.length_append, List.length_flatMap, List.length_singleton, Nat.add_comm]
  simp only [length_runWords]

/-- Settles O37: the open run is put before the runs of the rest of the sequence (`encodeFrom_eq_wordsOfRuns`); the runs
keep their properties as each symbol is put before them. -/
theorem encoderClosedForm : Obligations.EncoderClosedForm := by
  unfold Obligations.EncoderClosedForm
  intro m seq
  refine ⟨rleEncode_eq_closedForm m seq, flatMap_replicate_maximalRuns seq, isChain_maximalRuns seq,
    one_le_of_mem_maximalRuns seq, ?_⟩
  rw [rleEncode_eq_closedForm, length_rleClosedForm]

/-! ### The sentinel -/

/-- Every word of a run is a packed word of its symbol with a legal count (R92, R94). -/
theorem mem_runWords {m : RleMode} {x : BitVec 11} {n : Nat} {w : EncWord} (hw : w ∈ runWords m x n) :
    ∃ c : BitVec 7, 1 ≤ c.toNat ∧ c.toNat ≤ m.maxCnt ∧ w = pack m x c := by
  have hpos := maxCnt_pos m
  rcases List.mem_append.mp hw with hfull | hrest
  · have hcnt := toNat_ofNat_le_maxCnt m le_rfl
    exact ⟨_, by omega, by omega, List.eq_of_mem_replicate hfull⟩
  · split at hrest
    · cases hrest
    · have hmod := Nat.mod_lt n hpos
      have hcnt := toNat_ofNat_le_maxCnt m hmod.le
      exact ⟨_, by omega, by omega, List.mem_singleton.mp hrest⟩

/-- Every word of a legal sequence but the sentinel has a symbol and a count of the mode (R95). -/
theorem mem_wordsOfRuns {m : RleMode} {seq : List (BitVec 11)} (hseq : ∀ x ∈ seq, x.toNat < 2 ^ m.symW)
    {w : EncWord} (hw : w ∈ wordsOfRuns m (maximalRuns seq)) :
    ∃ (x : BitVec 11) (c : BitVec 7), x.toNat < 2 ^ m.symW ∧ 1 ≤ c.toNat ∧ c.toNat ≤ m.maxCnt ∧ w = pack m x c := by
  obtain ⟨p, hp, hwp⟩ := List.mem_flatMap.mp hw
  obtain ⟨c, h1, hc, rfl⟩ := mem_runWords hwp
  exact ⟨p.1, c, hseq _ (mem_of_mem_maximalRuns seq hp), h1, hc, rfl⟩

/-- Settles O38: by the closed form every word before the sentinel is a packed one with a count of at least 1. -/
theorem sentinelIsUnique : Obligations.SentinelIsUnique := by
  unfold Obligations.SentinelIsUnique
  intro m seq hseq
  rw [rleEncode_eq_closedForm, rleClosedForm_eq]
  refine ⟨⟨_, rfl, fun w hw => ?_, value_sentinel m⟩, fun w hw => ?_⟩
  · obtain ⟨x, c, hx, h1, hc, rfl⟩ := mem_wordsOfRuns hseq hw
    exact ⟨value_pack_ne_zero m hx h1 hc, by rwa [count_pack m x hc]⟩
  · rcases List.mem_append.mp hw with hw | hw
    · obtain ⟨x, c, -, -, -, rfl⟩ := mem_wordsOfRuns hseq hw
      exact width_pack m x c
    · rw [List.mem_singleton.mp hw, width_sentinel]

end Sys2Proof.Machine

/-! PROOFS. The packed word, RSYM and REND, and the document's scenario (spec/41_run_length_encoder.md R85 to R91,
R98): O33, O34, O35, O40. -/

namespace Sys2Proof.Machine

/-! ### The packed word -/

theorem le_maxCnt_iff (m : RleMode) (n : Nat) : n ≤ m.maxCnt ↔ n < 2 ^ m.cntW := by
  have := Nat.two_pow_pos m.cntW
  unfold RleMode.maxCnt
  omega

/-- A symbol and a count packed by the rule of R86, as a sum. -/
theorem pack_eq_word (m : RleMode) (sym : BitVec 11) {cnt : BitVec 7} (hc : cnt.toNat < 2 ^ m.cntW) :
    pack m sym cnt = m.word (sym.toNat * 2 ^ m.cntW + cnt.toNat) := by
  rw [pack, shift_or_eq m sym ((le_maxCnt_iff m _).mpr hc)]

theorem pack_dict (sym : BitVec 11) {cnt : BitVec 7} (hc : cnt.toNat < 32) :
    pack .dict sym cnt = .w16 (BitVec.ofNat 16 (sym.toNat * 32 + cnt.toNat)) := pack_eq_word .dict sym hc

theorem pack_pixel (sym : BitVec 11) (cnt : BitVec 7) :
    pack .pixel sym cnt = .w8 (BitVec.ofNat 8 (sym.toNat * 128 + cnt.toNat)) := pack_eq_word .pixel sym cnt.isLt

/-- A bit field of a word given as a number, as a quotient and a remainder. -/
theorem toNat_extract_ofNat (w n lo len : Nat) :
    ((BitVec.ofNat w n).extractLsb' lo len).toNat = n % 2 ^ w / 2 ^ lo % 2 ^ len := by
  rw [BitVec.extractLsb'_toNat, BitVec.toNat_ofNat, Nat.shiftRight_eq_div_pow]

/-- Settles O33: the value of a packed word is the symbol shifted above the count, so its quotient and its remainder,
and in each mode its two bit fields, are the two. -/
theorem packedWordLayout : Obligations.PackedWordLayout := by
  unfold Obligations.PackedWordLayout
  refine ⟨rfl, fun m => ⟨by cases m <;> simp, rfl, rfl⟩, fun m sym cnt hs hlt => ?value, fun sym cnt hc => ?dict,
    fun sym cnt hs => ?pixel⟩
  case value =>
    have hc := (le_maxCnt_iff m _).mpr hlt
    have hv := value_pack m hs hc
    refine ⟨hv, ?_, ?_, hv ▸ shift_or_lt m hs hc, width_pack m sym cnt⟩
    · rw [hv, Nat.add_comm, Nat.add_mul_div_right _ _ (by positivity), Nat.div_eq_of_lt hlt, Nat.zero_add]
    · rw [hv, Nat.add_comm, Nat.add_mul_mod_self_right, Nat.mod_eq_of_lt hlt]
  case dict =>
    have hsym := sym.isLt
    refine ⟨_, pack_dict sym hc, BitVec.eq_of_toNat_eq ?_, ?_⟩
    · rw [toNat_extract_ofNat]; omega
    · rw [toNat_extract_ofNat]; omega
  case pixel =>
    have hcnt := cnt.isLt
    refine ⟨_, pack_pixel sym cnt, ?_, BitVec.eq_of_toNat_eq ?_⟩
    · rw [toNat_extract_ofNat]; omega
    · rw [toNat_extract_ofNat]; omega

/-! ### `RSYM` and `REND` -/

/-- What `RleEnd` emits (R89): the word of the open run, if there is one, and the sentinel. -/
theorem runEnd_eq (m : RleMode) (r : Run) :
    runEnd m r = (if r.active then [pack m r.sym r.cnt] else []) ++ [sentinel m] := by
  unfold runEnd
  split <;> rfl

section
variable {s : State}

/-- `RlePush` on the block: the run after the push, and the words it emits appended to `enc` (R88). -/
theorem rlePush_of_runPush {x : BitVec 11} {r : Run} {ws : List EncWord} (h : runPush s.rleMode s.run x = (r, ws)) :
    rlePush x s = { s with run := r, enc := s.enc ++ ws } := by
  rw [rlePush, h]
  rfl

/-- `RSYM` of a symbol that fits pushes it (R90). -/
theorem exec_rsym_of_runPush {imm : BitVec 16} {r : Run} {ws : List EncWord} (hs : s.err = 0#6)
    (hfit : imm.toNat < 2 ^ s.rleMode.symW) (h : runPush s.rleMode s.run (imm.setWidth 11) = (r, ws)) :
    exec (.rsym 0#48 imm) s = .next (respond .ok 0#64 { s with run := r, enc := s.enc ++ ws }) := by
  have hsym : s.rleMode.symFits imm.toNat = true := decide_eq_true hfit
  rw [exec_of_passed (.inl hs) rfl, ownRule, rsymBody, if_pos hsym, rlePush_of_runPush h]

/-- `RSYM` of a symbol that does not fit (R90). -/
theorem exec_rsym_of_symbolRange {imm : BitVec 16} (hs : s.err = 0#6) (hwide : 2 ^ s.rleMode.symW ≤ imm.toNat) :
    exec (.rsym 0#48 imm) s = .next (raise .symbolRange s) := by
  have hsym : ¬ s.rleMode.symFits imm.toNat = true := by simpa [RleMode.symFits] using hwide
  rw [exec_of_passed (.inl hs) rfl, ownRule, rsymBody, if_neg hsym]

end

/-- Settles O34: the lock, the operand check and the range check, then one of the four cases of `RlePush`. -/
theorem rsymRule : Obligations.RsymRule := by
  unfold Obligations.RsymRule
  intro mbz imm s
  refine ⟨fun hs => exec_of_locked hs rfl, fun hs hmbz => ?_, exec_rsym_of_symbolRange,
    fun hs hfit => ⟨fun h => ?first, fun h hx hc => ?grows, fun h hx hc => ?overflow, fun h hx => ?change⟩⟩
  · exact exec_of_illFormed (.inl hs) (beq_eq_false_iff_ne.mpr hmbz)
  case first => rw [exec_rsym_of_runPush hs hfit (runPush_first h), List.append_nil]
  case grows =>
    have hcnt : BitVec.ofNat 7 (s.run.cnt.toNat + 1) = s.run.cnt + 1#7 := by
      rw [BitVec.ofNat_add, BitVec.ofNat_toNat, BitVec.setWidth_eq]
    rw [exec_rsym_of_runPush hs hfit (runPush_continue h hx hc), List.append_nil, hcnt]
  case overflow => exact exec_rsym_of_runPush hs hfit (runPush_overflow h hx hc)
  case change => exact exec_rsym_of_runPush hs hfit (runPush_change h hx)

/-- Settles O35: the lock and the operand check, then the words of `RleEnd` (`runEnd_eq`). -/
theorem rendRule : Obligations.RendRule := by
  unfold Obligations.RendRule
  intro mbz s
  refine ⟨fun hs => exec_of_locked hs rfl, fun hs hmbz => ?_, fun hs => ?_⟩
  · exact exec_of_illFormed (.inl hs) (beq_eq_false_iff_ne.mpr hmbz)
  · rw [exec_of_passed (.inl hs) rfl, ownRule, rleEnd, runEnd_eq, List.append_assoc]
    rfl

/-! ### The document's scenario -/

/-- Settles O40: one symbol is a run of 1, and the scenario is computed. -/
theorem documentScenario : Obligations.DocumentScenario := by
  unfold Obligations.DocumentScenario
  refine ⟨fun x => ⟨?_, ?_⟩, by decide, by decide⟩
  · rw [rleEncode_cons, encodeFrom_nil_open]
  · rw [value_pack .dict x.isLt (by decide), Nat.mul_comm]
    rfl

end Sys2Proof.Machine

/-! PROOFS. The codebook's commands LOOKUP and LOOKUPB, and its two views (spec/42_codebook_lut.md R106 to R108): O28,
O29, O30. -/

namespace Sys2Proof.Machine

/-! ### The bytes of the packed codebook -/

/-- The byte at an address is one of the codeword its quotient by `B` selects (R35). -/
theorem cbReadByte_of_cbRead_div {c : Cfg} {a : Nat} {v : Data} (h : cbRead c (a / c.B) = some v) :
    cbReadByte c a = some (codewordByte c v (a % c.B)) := by
  rw [cbReadByte, h, Option.map_some]

/-- There is a byte at every address below `K * B` (R35). -/
theorem exists_cbReadByte {c : Cfg} {a : Nat} (h : a < c.K * c.B) : ∃ b, cbReadByte c a = some b := by
  rw [← Option.ne_none_iff_exists', Ne, cbReadByte_eq_none_iff]
  exact Nat.not_le.mpr h

/-- A byte of a codeword as response data (R34, R107). -/
theorem setWidth_codewordByte (c : Cfg) (v : Data) (j : Nat) :
    (codewordByte c v j).setWidth 64 = BitVec.ofNat 64 (v.toNat / 2 ^ (c.L - 8 - 8 * j) % 256) := by
  rw [← toNat_codewordByte, BitVec.ofNat_toNat]

/-- Byte `j` of a codeword is its bits `L-1-8j : L-8-8j` (R34). -/
theorem getLsbD_codewordByte (c : Cfg) (v : Data) (j : Nat) {k : Nat} (hk : k < 8) :
    (codewordByte c v j).getLsbD k = v.getLsbD (c.L - 8 - 8 * j + k) := by
  simp [codewordByte, hk]

/-- Every byte address of a legal configuration fits the `imm` field (R3: `K <= 2048` and `B <= 8`). -/
theorem toNat_ofNat_of_lt_KB {c : Cfg} (hc : c.legal = true) {a : Nat} (ha : a < c.K * c.B) :
    (BitVec.ofNat 16 a).toNat = a := by
  obtain ⟨-, hK, -⟩ := (legal_iff c).mp hc
  have hB : c.B ≤ 8 := by
    have hL := L_le c
    have hLB := L_eq_mul_B c
    omega
  have hKB : c.K * c.B ≤ 2048 * 8 := Nat.mul_le_mul hK hB
  rw [BitVec.toNat_ofNat]
  exact Nat.mod_eq_of_lt (by omega)

/-- Every codeword index of a legal configuration fits the `imm` field (R3). -/
theorem toNat_ofNat_of_lt_K {c : Cfg} (hc : c.legal = true) {i : Nat} (hi : i < c.K) :
    (BitVec.ofNat 16 i).toNat = i :=
  toNat_ofNat_of_lt_KB hc (lt_of_lt_of_le hi (Nat.le_mul_of_pos_right _ (B_pos c)))

/-- Byte `j` of codeword `i` has an address below `K * B` (R35). -/
theorem byteAddress_lt {c : Cfg} {i j : Nat} (hi : i < c.K) (hj : j < c.B) : i * c.B + j < c.K * c.B :=
  calc i * c.B + j < i * c.B + c.B := Nat.add_lt_add_left hj _
    _ = (i + 1) * c.B := (Nat.succ_mul i c.B).symm
    _ ≤ c.K * c.B := Nat.mul_le_mul_right _ hi

/-! ### `LOOKUP` and `LOOKUPB` -/

section
variable {imm : BitVec 16} {s : State}

/-- `LOOKUP` of an index that has a codeword answers it (R106). -/
theorem exec_lookup_of_cbRead (hs : s.err = 0#6) {v : Data} (h : cbRead s.cfg imm.toNat = some v) :
    exec (.lookup 0#48 imm) s = .next (respond .ok v s) := by
  rw [exec_of_passed (.inl hs) rfl, ownRule, lookupBody, h]

/-- `LOOKUP` of an index that has none (R106). -/
theorem exec_lookup_of_indexRange (hs : s.err = 0#6) (h : s.cfg.K ≤ imm.toNat) :
    exec (.lookup 0#48 imm) s = .next (raise .indexRange s) := by
  rw [exec_of_passed (.inl hs) rfl, ownRule, lookupBody, (cbRead_eq_none_iff _ _).mpr h]

/-- `LOOKUPB` of an address that has a byte answers it (R107). -/
theorem exec_lookupb_of_cbReadByte (hs : s.err = 0#6) {b : Byte} (h : cbReadByte s.cfg imm.toNat = some b) :
    exec (.lookupb 0#48 imm) s = .next (respond .ok (b.setWidth 64) s) := by
  rw [exec_of_passed (.inl hs) rfl, ownRule, lookupbBody, h]

/-- `LOOKUPB` of an address that has none (R107). -/
theorem exec_lookupb_of_indexRange (hs : s.err = 0#6) (h : s.cfg.K * s.cfg.B ≤ imm.toNat) :
    exec (.lookupb 0#48 imm) s = .next (raise .indexRange s) := by
  rw [exec_of_passed (.inl hs) rfl, ownRule, lookupbBody, (cbReadByte_eq_none_iff _ _).mpr h]

end

/-- Settles O28: the lock and the operand check, then a codeword exactly while the index is below `K`. -/
theorem lookupRule : Obligations.LookupRule := by
  unfold Obligations.LookupRule
  intro mbz imm s
  refine ⟨fun hs => exec_of_locked hs rfl, fun hs hmbz => ?_, exec_lookup_of_indexRange, fun hs hlt => ?_⟩
  · exact exec_of_illFormed (.inl hs) (beq_eq_false_iff_ne.mpr hmbz)
  · obtain ⟨v, hv⟩ := (cbRead_isSome_iff s.cfg imm.toNat).mpr hlt
    exact ⟨v, hv, exec_lookup_of_cbRead hs hv⟩

/-- Settles O29: the lock and the operand check, then a byte exactly while the address is below `K * B`; it is the byte
at the address's remainder by `B` of the codeword at its quotient, as a number by `setWidth_codewordByte`. -/
theorem lookupbRule : Obligations.LookupbRule := by
  unfold Obligations.LookupbRule
  intro mbz imm s
  refine ⟨fun hs => exec_of_locked hs rfl, fun hs hmbz => ?_, exec_lookupb_of_indexRange, fun hs hlt => ?_⟩
  · exact exec_of_illFormed (.inl hs) (beq_eq_false_iff_ne.mpr hmbz)
  · have hidx : imm.toNat / s.cfg.B < s.cfg.K := Nat.div_lt_of_lt_mul (by rwa [Nat.mul_comm])
    obtain ⟨v, hv⟩ := (cbRead_isSome_iff s.cfg _).mpr hidx
    refine ⟨v, hv, ?_⟩
    rw [exec_lookupb_of_cbReadByte hs (cbReadByte_of_cbRead_div hv), setWidth_codewordByte]

/-- Settles O30: at `i * B + j` `LOOKUPB` answers byte `j` of the codeword that `LOOKUP` answers at `i`
(`cbReadByte_of_cbRead`), and the packed image holds at each address what `CbReadByte` answers there
(`getElem?_packedImage`). -/
theorem codebookViewsAgree : Obligations.CodebookViewsAgree := by
  unfold Obligations.CodebookViewsAgree
  refine ⟨fun s i j hc hs hi hj => ?byteOfCodeword,
    fun s hc hs => ⟨length_packedImage s.cfg, fun a ha => ?byteOfImage⟩⟩
  case byteOfCodeword =>
    obtain ⟨v, hv⟩ := (cbRead_isSome_iff s.cfg i).mpr hi
    have hbyte := cbReadByte_of_cbRead hj hv
    refine ⟨v, (codewordByte s.cfg v j).setWidth 64, exec_lookup_of_cbRead hs ?_,
      exec_lookupb_of_cbReadByte hs ?_, ?_, fun k hk => ?_⟩
    · rwa [toNat_ofNat_of_lt_K hc hi]
    · rwa [toNat_ofNat_of_lt_KB hc (byteAddress_lt hi hj)]
    · rw [BitVec.toNat_setWidth_of_le (by decide)]
      exact (codewordByte s.cfg v j).isLt
    · rw [BitVec.getLsbD_setWidth, getLsbD_codewordByte s.cfg v j hk, decide_eq_true (by omega), Bool.true_and]
  case byteOfImage =>
    obtain ⟨b, hb⟩ := exists_cbReadByte ha
    refine ⟨b, (getElem?_packedImage ha).trans hb, exec_lookupb_of_cbReadByte hs ?_⟩
    rwa [toNat_ofNat_of_lt_KB hc ha]

end Sys2Proof.Machine

/-! PROOFS. The shell's commands NOP, SRST, RDCSR and WRCSR (spec/43_system_commands.md R112 to R115): O15, O16, O17,
O18. -/

namespace Sys2Proof.Machine

/-! ### `RDCSR` -/

/-- `STATUS.LOCKED` as the rule writes it (R13, R16). -/
theorem locked_eq_decide (s : State) : s.locked = decide (s.err ≠ 0#6) := by
  rw [Bool.eq_iff_iff, locked_iff, decide_eq_true_iff]

/-- The number of a mode is 1 for PIXEL alone (R15). -/
theorem bit_eq_decide (m : RleMode) : m.bit = decide (m = .pixel) := by cases m <;> rfl

section
variable {csr : BitVec 8} {s : State}

/-- `RDCSR` of a defined register answers its value as a number, locked or not (R114). -/
theorem exec_rdcsr_of_readCsr {v : CsrWord} {k : Nat} (h : readCsr s csr = some v) (hv : v.toNat = k) :
    exec (.rdcsr 0#24 csr 0#32) s = .next (respond .ok (BitVec.ofNat 64 k) s) := by
  rw [exec_of_passed (.inr rfl) rfl, ownRule, rdcsrBody, h, ← hv, BitVec.ofNat_toNat]

/-- `RDCSR` of a number above 5 (R14, R114). -/
theorem exec_rdcsr_of_undefined (h : 5 < csr.toNat) :
    exec (.rdcsr 0#24 csr 0#32) s = .next (raise .csrAccess s) := by
  rw [exec_of_passed (.inr rfl) rfl, ownRule, rdcsrBody, (readCsr_eq_none_iff s csr).mpr h]

/-- `RDCSR` with a bit set in either of its "must be zero" fields (R114). -/
theorem exec_rdcsr_of_mbz {mbzHi : BitVec 24} {valMbz : BitVec 32} (h : mbzHi ≠ 0#24 ∨ valMbz ≠ 0#32) :
    exec (.rdcsr mbzHi csr valMbz) s = .next (raise .badOperand s) := by
  have hill : Instr.wellFormed s.cfg (.rdcsr mbzHi csr valMbz) = false :=
    Bool.and_eq_false_iff.mpr (h.imp beq_eq_false_iff_ne.mpr beq_eq_false_iff_ne.mpr)
  exact exec_of_illFormed (.inr rfl) hill

end

/-- Settles O17: the operand check, then the value of the register as a number, each by its layout lemma
(`toNat_ctrl` to `toNat_param`). -/
theorem rdcsrRule : Obligations.RdcsrRule := by
  unfold Obligations.RdcsrRule
  intro mbzHi csr valMbz s
  refine ⟨exec_rdcsr_of_mbz, exec_rdcsr_of_undefined, exec_rdcsr_of_readCsr rfl ?ctrl,
    exec_rdcsr_of_readCsr rfl ?status, exec_rdcsr_of_readCsr rfl (toNat_errCsr s), exec_rdcsr_of_readCsr rfl ?run,
    exec_rdcsr_of_readCsr rfl ?qres, fun hK => exec_rdcsr_of_readCsr rfl ?param⟩
  case ctrl => rw [toNat_ctrl, bit_eq_decide, Nat.add_comm]
  case status => rw [toNat_status, locked_eq_decide]; omega
  case run => rw [toNat_runCsr, Nat.add_comm]
  case qres => rw [toNat_qresCsr, Nat.add_comm]
  case param => rw [toNat_param hK, Nat.add_comm]

/-! ### `WRCSR` -/

/-- The three legal values of `CTRL`, with the two fields each sets (R15). -/
theorem ctrlFields_of_lt_three {val : BitVec 32} (h : val.toNat < 3) :
    RleMode.ofBit (val.getLsbD 0) = (if val = 1#32 then .pixel else .dict) ∧
      val.getLsbD 1 = decide (val = 2#32) := by
  have hval : val = 0#32 ∨ val = 1#32 ∨ val = 2#32 := by bv_omega
  rcases hval with rfl | rfl | rfl <;> decide

section
variable {csr : BitVec 8} {val : BitVec 32} {s : State}

/-- An unlocked `WRCSR` without "must be zero" bits runs its own rule (R53 step 4). -/
theorem exec_wrcsr_of_unlocked (hs : s.err = 0#6) :
    exec (.wrcsr 0#24 csr val) s = .next (wrcsrBody csr val s) :=
  exec_of_passed (.inl hs) rfl

/-- Check 1 of R115: only `CTRL` can be written. -/
theorem wrcsrBody_of_ne_ctrl (h : csr ≠ 0#8) : wrcsrBody csr val s = raise .csrAccess s := if_pos h

/-- Check 2 of R115: 3 and above is no value of `CTRL`. -/
theorem wrcsrBody_of_three_le (h : 3 ≤ val.toNat) : wrcsrBody 0#8 val s = raise .badOperand s := by
  have hill : ctrlLegal val = false := by
    rw [← Bool.not_eq_true, ctrlLegal_iff]
    exact Nat.not_lt.mpr h
  rw [wrcsrBody, if_neg (not_not_intro rfl), if_pos hill]

/-- A legal value of `CTRL` passes checks 1 and 2 of R115; check 3, an open run, decides. -/
theorem wrcsrBody_of_lt_three (h : val.toNat < 3) :
    wrcsrBody 0#8 val s =
      if s.run.active then raise .cfgBusy s
      else respond .ok 0#64
        { s with rleMode := if val = 1#32 then .pixel else .dict, chain := decide (val = 2#32) } := by
  obtain ⟨hmode, hchain⟩ := ctrlFields_of_lt_three h
  have hlegal : ctrlLegal val = true := (ctrlLegal_iff val).mpr h
  rw [wrcsrBody, if_neg (not_not_intro rfl), if_neg (ne_false_of_eq_true hlegal), hmode, hchain]

end

/-- Settles O18: the lock and the operand check, then the three checks of the command's own rule in order. -/
theorem wrcsrRule : Obligations.WrcsrRule := by
  unfold Obligations.WrcsrRule
  intro mbzHi csr val s
  refine ⟨fun hs => exec_of_locked hs rfl, fun hs hmbz => ?mbz, fun hs hcsr => ?csr, fun hs hval => ?value,
    fun hs hval hrun => ?busy, fun hs hval hrun => ?ok⟩
  case mbz => exact exec_of_illFormed (.inl hs) (beq_eq_false_iff_ne.mpr hmbz)
  case csr => rw [exec_wrcsr_of_unlocked hs, wrcsrBody_of_ne_ctrl hcsr]
  case value => rw [exec_wrcsr_of_unlocked hs, wrcsrBody_of_three_le hval]
  case busy => rw [exec_wrcsr_of_unlocked hs, wrcsrBody_of_lt_three hval, if_pos hrun]
  case ok => rw [exec_wrcsr_of_unlocked hs, wrcsrBody_of_lt_three hval, if_neg (Bool.eq_false_iff.mp hrun)]

/-! ### `NOP` and `SRST` -/

/-- Settles O15: the lock, then the operand check, then the bare response. -/
theorem nopRule : Obligations.NopRule := by
  unfold Obligations.NopRule
  intro mbz s
  refine ⟨fun hs => exec_of_locked hs rfl, fun hs hmbz => ?_, fun hs => exec_of_passed (.inl hs) rfl⟩
  exact exec_of_illFormed (.inl hs) (beq_eq_false_iff_ne.mpr hmbz)

/-- Settles O16: the lock lets `SRST` through, so it fails on its operand alone; else every field is the one
`resetFields` leaves. -/
theorem srstRule : Obligations.SrstRule := by
  unfold Obligations.SrstRule
  intro mbz s
  have hreset : exec (.srst 0#64) s = .next (respond .ok 0#64 (resetFields s)) := exec_of_passed (.inr rfl) rfl
  refine ⟨fun hmbz => ?_, _, hreset, ?_⟩
  · exact exec_of_illFormed (.inr rfl) (beq_eq_false_iff_ne.mpr hmbz)
  · simp [Run.idle, QRes.none]

end Sys2Proof.Machine

/-! PROOFS. The lock and precise errors (spec/60_exceptions.md R122, R123): O9, O10. -/

namespace Sys2Proof.Machine

section
variable {cw : CmdWord} {s t : State}

/-! ### The lock -/

/-- A locked block answers `LOCKED` to every word but the two exempt opcodes, defined or not (R53 step 1, R123). -/
theorem runCommand_of_locked (hs : s.err ≠ 0#6) (hsrst : cw.op ≠ 0x01#8) (hrdcsr : cw.op ≠ 0x02#8) :
    runCommand cw s = .next (answerLocked s) := by
  rcases runCommand_cases cw s with ⟨i, -, rfl, h⟩ | ⟨-, h⟩
  · rw [op_encode] at hsrst hrdcsr
    have hexempt : i.exempt = false := by
      rw [← Bool.not_eq_true, exempt_iff_opcode]
      exact not_or.mpr ⟨hsrst, hrdcsr⟩
    rw [h, exec_of_locked hs hexempt]
  · rw [h, undefinedOp_of_locked hs]

/-! ### The answers to a command word -/

/-- A command word is answered `LOCKED` by a locked block, or raises one error, or has a command's effect and is
answered `OK`: `exec_cases` for every word, the undefined opcodes among them (R53). -/
theorem runCommand_answer_cases (h : runCommand cw s = .next t) :
    (s.err ≠ 0#6 ∧ t = answerLocked s) ∨ (∃ e, t = raise e s) ∨ ∃ i d, t = respond .ok d (effect i s) := by
  rcases runCommand_cases cw s with ⟨i, -, -, hrun⟩ | ⟨-, hrun⟩ <;> rw [hrun] at h
  · rcases exec_cases h with ⟨hs, -, ht⟩ | ⟨-, he⟩ | ⟨-, -, -, hd⟩
    · exact .inl ⟨hs, ht⟩
    · exact .inr (.inl he)
    · exact .inr (.inr ⟨i, hd⟩)
  · cases h
    by_cases hs : s.err = 0#6
    · exact .inr (.inl ⟨.illegalOp, undefinedOp_of_unlocked hs⟩)
    · exact .inl ⟨hs, undefinedOp_of_locked hs⟩

/-- The error action adds to `err` the one bit below the error's number (R17, R122). -/
theorem getLsbD_raise_err (e : ErrorKind) (s : State) (n : Nat) :
    (raise e s).err.getLsbD n = (s.err.getLsbD n || decide (n + 1 = e.number)) := by
  rw [raise_err, BitVec.getLsbD_or, getLsbD_bit]

end

/-- Settles O9: the lock comes first, for a command and for an undefined opcode alike, and its answer is the bare
response. -/
theorem lockedBlockDoesNothing : Obligations.LockedBlockDoesNothing := by
  unfold Obligations.LockedBlockDoesNothing
  exact fun cw s hs hsrst hrdcsr => runCommand_of_locked hs hsrst hrdcsr

/-- Settles O10: the one response names the answer, so one that is not `OK` comes from the lock or from the error
action, and neither changes more than the statement says. -/
theorem errorsArePrecise : Obligations.ErrorsArePrecise := by
  unfold Obligations.ErrorsArePrecise
  intro cw s t r h ht hr
  rcases runCommand_answer_cases h with ⟨hs, rfl⟩ | ⟨e, rfl⟩ | ⟨i, d, rfl⟩
  · obtain rfl : ⟨.locked, 0#64⟩ = r := by simpa using ht
    exact ⟨rfl, .inl ⟨rfl, hs, rfl⟩⟩
  · obtain rfl : ⟨.error e, 0#64⟩ = r := by simpa using ht
    exact ⟨rfl, .inr ⟨e, rfl, rfl, getLsbD_raise_err e s⟩⟩
  · obtain rfl : ⟨.ok, d⟩ = r := by simpa using ht
    exact absurd rfl hr

end Sys2Proof.Machine

/-! PROOFS. The hard reset (spec/70_reset_and_hazards.md R140): O45. -/

namespace Sys2Proof.Machine

section
variable {s : State} {rest : List Event}

/-- A hard reset is the one event that needs no earlier reset (R140, R143 item 2): with a legal configuration the step
that takes it always resets the block. -/
theorem step_of_hardReset (hc : s.cfg.legal = true) (hi : s.inputs = .hardReset :: rest) :
    step s = .next (hardReset { s with inputs := rest }) := by
  simp [step, advance, hc, hi, handle]

/-- After a hard reset the rules apply to the block (R143 item 2), under the configuration it had. -/
theorem ready_hardReset (hc : s.cfg.legal = true) : (hardReset s).Ready := ⟨hc, rfl⟩

end

/-- Settles O45: the step is the hard reset of the block behind the event, whose fields the laws of `hardReset` give. -/
theorem hardResetRule : Obligations.HardResetRule := by
  unfold Obligations.HardResetRule
  intro s rest hc hi
  refine ⟨hardReset { s with inputs := rest }, step_of_hardReset hc hi, ?_⟩
  exact ⟨hardReset_rleMode _, hardReset_chain _, hardReset_err _, hardReset_run _, hardReset_qres _, hardReset_enc _,
    hardReset_rsps _, hardReset_cfg _, hardReset_inputs _, ready_hardReset hc⟩

end Sys2Proof.Machine

/-! PROOFS. Encoding: the decoder and the encoder are inverse, and what the assembler writes
(spec/30_encoding.md R51, R54, R59, R60): O1, O4, O5. -/

namespace Sys2Proof.Machine

/-! ### Round trip -/

/-- An encoded command decodes to itself: the word has its opcode and its operand (R51). -/
@[simp] theorem decode_encode (i : Instr) : decode (encode i) = .ok i :=
  decode_of_parts (op_encode i) (arg_encode i)

/-- A word that decodes is the encoding of its command: no bit of it is dropped (R51). -/
theorem encode_of_decode {cw : CmdWord} {i : Instr} (h : decode cw = .ok i) : encode i = cw := by
  obtain ⟨hop, harg⟩ := decode_eq_ok h
  rw [encode, hop, harg, op_append_arg]

/-- Settles O1: the opcode and the operand of an encoded command are its own, and a word is its opcode above its
operand. -/
theorem decodeEncodeRoundTrip : Obligations.DecodeEncodeRoundTrip := by
  unfold Obligations.DecodeEncodeRoundTrip
  exact ⟨decode_encode, fun _ _ => encode_of_decode⟩

/-- Settles O4: ten words, each decoded by computation. -/
theorem specWordsDecode : Obligations.SpecWordsDecode := by
  unfold Obligations.SpecWordsDecode
  decide

/-! ### The assembler -/

/-- `cw` is the word of a command whose "must be zero" bits are all 0. -/
def WellFormedWord (c : Cfg) (cw : CmdWord) : Prop := ∃ i, decode cw = .ok i ∧ i.wellFormed c = true

section
variable {c : Cfg} {cw : CmdWord} {ws : List CmdWord}

theorem wellFormedWord_encode {i : Instr} (h : i.wellFormed c = true) : WellFormedWord c (encode i) :=
  ⟨i, decode_encode i, h⟩

/-- An index, an address or a symbol has no "must be zero" bit set, whatever its 16 bits (R59). -/
theorem wellFormedWord_of_asmRsym {n : Nat} (h : asmRsym n = some cw) : WellFormedWord c cw := by
  obtain ⟨imm, -, rfl⟩ := Option.map_eq_some_iff.mp h
  exact wellFormedWord_encode rfl

/-- A tile operand is refused unless it fits `L` bits (R59), so no bit above them is set. -/
theorem wellFormedWord_of_asmQtile {n : Nat} (h : asmQtile c n = some cw) : WellFormedWord c cw := by
  obtain ⟨t, ht, rfl⟩ := Option.map_eq_some_iff.mp h
  obtain ⟨hn, ht⟩ := Option.ite_none_right_eq_some.mp ht
  obtain rfl := Option.some.inj ht
  refine wellFormedWord_encode ((fits_iff c _).mpr ?_)
  rw [BitVec.toNat_ofNat]
  exact lt_of_le_of_lt (Nat.mod_le _ _) hn

/-- A line of one command, its operand read from a number. -/
theorem wellFormedWord_of_mem_line {α : Type} {o : Option α} {f : α → CmdWord}
    (h : o.map (fun a => [f a]) = some ws) (hf : ∀ a, o = some a → WellFormedWord c (f a)) (hcw : cw ∈ ws) :
    WellFormedWord c cw := by
  obtain ⟨a, ha, rfl⟩ := Option.map_eq_some_iff.mp h
  exact List.mem_singleton.mp hcw ▸ hf a ha

/-- What `mapM` answers is read element by element. -/
theorem exists_of_mem_mapM {α β : Type} {f : α → Option β} {b : β} :
    ∀ {as : List α} {bs : List β}, as.mapM f = some bs → b ∈ bs → ∃ a, f a = some b
  | [], bs, h, hb => by
    obtain rfl : [] = bs := Option.some.inj h
    cases hb
  | a :: as, bs, h, hb => by
    rw [List.mapM_cons] at h
    obtain ⟨b', hb', h⟩ := Option.bind_eq_some_iff.mp h
    obtain ⟨bs', hbs', h⟩ := Option.bind_eq_some_iff.mp h
    obtain rfl := Option.some.inj h
    rcases List.mem_cons.mp hb with rfl | hb
    · exact ⟨a, hb'⟩
    · exact exists_of_mem_mapM hbs' hb

/-- A pseudo-command over a list of operands: the word of each, then `rend` (R60). -/
theorem wellFormedWord_of_mem_sequence {f : Nat → Option CmdWord} {ns : List Nat}
    (h : (ns.mapM f).map (fun ws => ws ++ [encode (.rend 0)]) = some ws)
    (hf : ∀ {n cw}, f n = some cw → WellFormedWord c cw) (hcw : cw ∈ ws) : WellFormedWord c cw := by
  obtain ⟨vs, hvs, rfl⟩ := Option.map_eq_some_iff.mp h
  rcases List.mem_append.mp hcw with hcw | hcw
  · obtain ⟨n, hn⟩ := exists_of_mem_mapM hvs hcw
    exact hf hn
  · exact List.mem_singleton.mp hcw ▸ wellFormedWord_encode rfl

end

/-- Settles O5: the assembler writes 0 in every "must be zero" field, and refuses a tile that does not fit. -/
theorem assembledWordsAreWellFormed : Obligations.AssembledWordsAreWellFormed := by
  unfold Obligations.AssembledWordsAreWellFormed
  intro c line ws hraw h cw hcw
  change WellFormedWord c cw
  cases line with
  | raw w => exact absurd rfl (hraw w)
  | nop | srst | rend | setmodeDict | setmodePixel | setmodeDictChain =>
    obtain rfl := Option.some.inj h
    exact List.mem_singleton.mp hcw ▸ wellFormedWord_encode rfl
  | rdcsr | lookup | lookupb => exact wellFormedWord_of_mem_line h (fun _ _ => wellFormedWord_encode rfl) hcw
  | wrcsr csr val =>
    obtain ⟨n, -, h⟩ := Option.bind_eq_some_iff.mp h
    obtain ⟨v, -, h⟩ := Option.bind_eq_some_iff.mp h
    obtain rfl := Option.some.inj h
    exact List.mem_singleton.mp hcw ▸ wellFormedWord_encode rfl
  | qtile tile => exact wellFormedWord_of_mem_line h (fun _ => wellFormedWord_of_asmQtile) hcw
  | rsym sym => exact wellFormedWord_of_mem_line h (fun _ => wellFormedWord_of_asmRsym) hcw
  | rseq syms => exact wellFormedWord_of_mem_sequence h wellFormedWord_of_asmRsym hcw
  | qframe tiles => exact wellFormedWord_of_mem_sequence h wellFormedWord_of_asmQtile hcw

end Sys2Proof.Machine

/-! PROOFS. The invariants of the state: they hold after reset and every step keeps them (spec/10_state.md R23), and
the value of `CTRL` (R15): O19, O50, O51. -/

namespace Sys2Proof.Machine

/-! ### What a step can do -/

/-- A step that answers a next state (R9): nothing happens, a command runs, or a reset is asserted, between two
commands or during one. It takes at most one event off the list. -/
theorem step_next_cases {s t : State} (h : step s = .next t) :
    s.cfg.legal = true ∧
      ((∃ rest, t = s.withInputs rest) ∨
       (∃ cw rest, s.inputs = .command cw :: rest ∧ runCommand cw (s.withInputs rest) = .next t) ∨
       (∃ rest, s.inputs = .hardReset :: rest ∧ t = hardReset (s.withInputs rest)) ∨
       ∃ cw sent rest, s.inputs = .hardResetDuring cw sent :: rest ∧
         t = hardResetDuring cw sent (s.withInputs rest)) := by
  obtain ⟨hc, ⟨-, rfl⟩ | ⟨e, rest, hi, he⟩⟩ := step_cases h
  · exact ⟨hc, .inl ⟨t.inputs, rfl⟩⟩
  · refine ⟨hc, ?_⟩
    rcases handle_cases he with ⟨cw, rfl, -, hcw⟩ | ⟨rfl, ht⟩ | ⟨cw, sent, rfl, -, ht⟩ | ⟨-, -, ht⟩
    · exact .inr (.inl ⟨cw, rest, hi, hcw⟩)
    · exact .inr (.inr (.inl ⟨rest, hi, ht⟩))
    · exact .inr (.inr (.inr ⟨cw, sent, rest, hi, ht⟩))
    · exact .inl ⟨rest, ht⟩

/-! ### What a command can do, but for its answer -/

section
variable {i : Instr} {cw : CmdWord} {s t : State}

/-- A command changes `err` and the responses alone, or it has passed its checks and has its effect: `exec_cases` with
the two error answers as one. -/
theorem exec_frame_cases (h : exec i s = .next t) :
    (∃ err rsps, t = { s with err := err, rsps := rsps }) ∨
      ((s.err = 0#6 ∨ i.exempt = true) ∧ i.wellFormed s.cfg = true ∧ accepted i s ∧
        ∃ d, t = respond .ok d (effect i s)) := by
  rcases exec_cases h with ⟨-, -, rfl⟩ | ⟨-, e, rfl⟩ | hok
  · exact .inl ⟨_, _, rfl⟩
  · exact .inl ⟨_, _, rfl⟩
  · exact .inr hok

/-- The same for every command word: an undefined opcode has no effect (R55). -/
theorem runCommand_frame_cases (h : runCommand cw s = .next t) :
    (∃ err rsps, t = { s with err := err, rsps := rsps }) ∨
      ∃ i, decode cw = .ok i ∧ (s.err = 0#6 ∨ i.exempt = true) ∧ i.wellFormed s.cfg = true ∧ accepted i s ∧
        ∃ d, t = respond .ok d (effect i s) := by
  rcases runCommand_cases cw s with ⟨i, hd, -, hi⟩ | ⟨-, hu⟩
  · exact (exec_frame_cases (hi.symm.trans h)).imp_right fun hok => ⟨i, hd, hok⟩
  · obtain rfl := Host.Outcome.next.inj (hu.symm.trans h)
    unfold undefinedOp
    split <;> exact .inl ⟨_, _, rfl⟩

end

namespace State.Inv

variable {s t : State}

/-! ### The shared operations -/

/-- The invariants speak of neither `err` nor the responses nor the model's own fields. -/
theorem keep (h : s.Inv) (err : BitVec 6) (rsps : List Rsp) (inputs : List Event) (seen : Bool) :
    { s with err := err, rsps := rsps, inputs := inputs, resetSeen := seen }.Inv :=
  ⟨h.configLegal, h.idleRun, h.openRun, h.chainDict, h.noResult, h.result, h.words⟩

theorem withInputs (h : s.Inv) (inputs : List Event) : (s.withInputs inputs).Inv := h.keep _ _ _ _

theorem respond (h : s.Inv) (code : Code) (data : Data) : (respond code data s).Inv := h.keep _ _ _ _

/-- Words that are sentinels or have a count of at least 1 may be emitted (R23 item 7). -/
theorem emit (h : s.Inv) {ws : List EncWord} (hws : ∀ w ∈ ws, w.value = 0 ∨ 1 ≤ w.count) : (emit ws s).Inv :=
  ⟨h.configLegal, h.idleRun, h.openRun, h.chainDict, h.noResult, h.result,
    List.forall_mem_append.mpr ⟨h.words, hws⟩⟩

/-- Every field of R23 is 0 after a reset, so only the configuration and `enc` are left to the state before. -/
theorem resetFields (h : s.Inv) : (resetFields s).Inv :=
  ⟨h.configLegal, fun _ => ⟨rfl, rfl⟩, nofun, nofun, fun _ => ⟨rfl, rfl⟩, nofun, h.words⟩

theorem hardReset (h : s.Inv) : (hardReset s).Inv := h.resetFields.keep _ _ _ _

/-- `RlePush` of a symbol that fits leaves a legal run open and emits legal words (R94, R95). -/
theorem rlePush (h : s.Inv) {x : BitVec 11} (hx : x.toNat < 2 ^ s.rleMode.symW) : (rlePush x s).Inv :=
  ⟨h.configLegal, fun hidle => absurd runPush_active (ne_true_of_eq_false hidle), runPush_legal h.openRun hx,
    h.chainDict, h.noResult, h.result,
    List.forall_mem_append.mpr ⟨h.words, fun _ hw => .inr (count_of_mem_runPush h.openRun hw)⟩⟩

/-- `RleEnd` closes the run (R89). -/
theorem rleEnd (h : s.Inv) : (rleEnd s).Inv :=
  ⟨h.configLegal, fun _ => ⟨rfl, rfl⟩, nofun, h.chainDict, h.noResult, h.result,
    List.forall_mem_append.mpr ⟨h.words, fun _ hw => count_of_mem_runEnd h.openRun hw⟩⟩

/-- The scan leaves the nearest codeword's index and its distance from the tile, now in `tile_reg` (R74). -/
theorem quantizeInto (h : s.Inv) {tile : Data} (hfit : s.cfg.fits tile = true) : (quantizeInto tile s).Inv := by
  have hscan := scanInv_scanTile h.configLegal tile
  have hq := quantizes_scanTile h.configLegal tile
  obtain ⟨w, hw, hdist⟩ := hq.1
  refine ⟨h.configLegal, h.idleRun, h.openRun, h.chainDict, nofun, fun _ => ?_, h.words⟩
  refine ⟨hq.lt_K, hq.le_L h.configLegal hfit, w, hw, ?_⟩
  rw [quantizeInto_scan, hscan.tile]
  exact hdist.symm

/-- In DICT mode, the only one `chain` goes with, every index is a symbol (R23 item 3, R85). -/
theorem chainPush (h : s.Inv) : (chainPush s).Inv := by
  cases hchain : s.chain with
  | false => rwa [chainPush_of_unchained s hchain]
  | true =>
    rw [chainPush_of_chained s hchain]
    refine h.rlePush ?_
    rw [h.chainDict hchain]
    exact s.qres.idx.isLt

/-! ### Commands and steps -/

/-- A legal value of `CTRL` does not set `CHAIN` with PIXEL mode (R15), and no run is open when it is written. -/
theorem writeCtrl (h : s.Inv) {val : BitVec 32} (hval : ctrlLegal val = true) (hrun : s.run.active = false) :
    { s with rleMode := RleMode.ofBit (val.getLsbD 0), chain := val.getLsbD 1 }.Inv := by
  obtain ⟨hmode, hchain⟩ := ctrlFields_of_lt_three ((ctrlLegal_iff val).mp hval)
  refine ⟨h.configLegal, h.idleRun, fun hopen => absurd hrun (ne_false_of_eq_true hopen), fun hset => ?_,
    h.noResult, h.result, h.words⟩
  have hval2 : val = 2#32 := of_decide_eq_true (hchain.symm.trans hset)
  rw [hmode, hval2]
  rfl

/-- The effect of a command that its checks accept. -/
theorem effect {i : Instr} (h : s.Inv) (hwf : i.wellFormed s.cfg = true) (hacc : accepted i s) :
    (effect i s).Inv := by
  cases i with
  | nop | rdcsr | lookup | lookupb => exact h
  | srst => exact h.resetFields
  | rend => exact h.rleEnd
  | qtile tile => exact (h.quantizeInto hwf).chainPush
  | wrcsr mbz csr val =>
    obtain ⟨-, hval, hrun⟩ := hacc
    exact h.writeCtrl hval hrun
  | rsym mbz imm =>
    have hfit : imm.toNat < 2 ^ s.rleMode.symW := of_decide_eq_true hacc
    refine h.rlePush (lt_of_le_of_lt ?_ hfit)
    rw [BitVec.toNat_setWidth]
    exact Nat.mod_le _ _

/-- Every command word keeps the invariants. -/
theorem runCommand {cw : CmdWord} (h : s.Inv) (hrun : runCommand cw s = .next t) : t.Inv := by
  rcases runCommand_frame_cases hrun with ⟨err, rsps, rfl⟩ | ⟨i, -, -, hwf, hacc, d, rfl⟩
  · exact h.keep _ _ _ _
  · exact (h.effect hwf hacc).respond _ _

/-- The words a command emits are in the `enc` of a state that meets the invariants. -/
theorem hardResetDuring (h : s.Inv) (cw : CmdWord) (sent : Nat) : (hardResetDuring cw sent s).Inv := by
  obtain ⟨u, hu⟩ := runCommand_next cw s
  refine h.hardReset.emit fun w hw => (h.runCommand hu).words w ?_
  rw [enc_runCommand hu]
  exact List.mem_append_right _ (List.mem_of_mem_take hw)

end State.Inv

/-- Settles O51: each event keeps the invariants; a command by the effect it has once its checks have passed, and a
reset cut into a command because the words let out are some of the command's own. -/
theorem everyStepKeepsTheInvariants : Obligations.EveryStepKeepsTheInvariants := by
  unfold Obligations.EveryStepKeepsTheInvariants
  intro s t h hstep
  obtain ⟨-, ⟨rest, rfl⟩ | ⟨cw, rest, -, hrun⟩ | ⟨rest, -, rfl⟩ | ⟨cw, sent, rest, -, rfl⟩⟩ := step_next_cases hstep
  · exact h.withInputs rest
  · exact (h.withInputs rest).runCommand hrun
  · exact (h.withInputs rest).hardReset
  · exact (h.withInputs rest).hardResetDuring cw sent

/-- Every field is 0 and `enc` is empty. -/
theorem inv_resetWith {c : Cfg} (hc : c.legal = true) : (State.resetWith c).Inv :=
  ⟨hc, fun _ => ⟨rfl, rfl⟩, nofun, nofun, fun _ => ⟨rfl, rfl⟩, nofun, nofun⟩

/-- Settles O50: `State.reset` is the state after reset under a legal configuration. -/
theorem invariantsHoldAfterReset : Obligations.InvariantsHoldAfterReset := by
  unfold Obligations.InvariantsHoldAfterReset
  exact ⟨fun _ => inv_resetWith, inv_resetWith (by decide)⟩

/-- Settles O19: `chain` is set only in DICT mode (R23 item 3), so the value is never 3. -/
theorem ctrlHoldsALegalValue : Obligations.CtrlHoldsALegalValue := by
  unfold Obligations.CtrlHoldsALegalValue
  intro s h
  have hval := toNat_ctrl s
  cases hchain : s.chain with
  | true =>
    rw [hchain, h.chainDict hchain] at hval
    exact .inr (.inr (BitVec.eq_of_toNat_eq hval))
  | false =>
    rw [hchain] at hval
    cases hmode : s.rleMode with
    | dict => rw [hmode] at hval; exact .inl (BitVec.eq_of_toNat_eq hval)
    | pixel => rw [hmode] at hval; exact .inr (.inl (BitVec.eq_of_toNat_eq hval))

end Sys2Proof.Machine

/-! PROOFS. The step, the responses, the lock and the histories (spec/00_scope.md R8, spec/10_state.md R21,
spec/30_encoding.md R53, R57, spec/60_exceptions.md R121 to R127, spec/70_reset_and_hazards.md R143): O6, O7, O8, O11,
O12, O13, O14, O49. -/

namespace Sys2Proof.Machine

/-! ### Which event a step takes -/

section
variable {s : State}

theorem runCommand_of_decode {cw : CmdWord} {i : Instr} (h : decode cw = .ok i) : runCommand cw s = exec i s := by
  rw [runCommand, h]

theorem runCommand_of_undecodable {cw : CmdWord} {e : DecodeError} (h : decode cw = .error e) :
    runCommand cw s = .next (undefinedOp s) := by
  rw [runCommand, h]

/-- A table word that the decoder reads is a command word (log entry 21). -/
theorem decode_tableWord {nbits w : Nat} {i : Instr} (h : decodeTableWord nbits w = some i) :
    decode (tableWord nbits w) = .ok i := by
  obtain ⟨-, h⟩ := Option.ite_none_right_eq_some.mp h
  cases hd : decode (tableWord nbits w) with
  | ok j => rw [hd] at h; exact congrArg Except.ok (Option.some.inj h)
  | error e => rw [hd] at h; cases h

/-- After the first reset a rule's answer stands (R143 item 2). -/
theorem afterFirstReset_of_seen (h : s.resetSeen = true) (o : Host.Outcome State Fault Refusal) :
    afterFirstReset s o = o := if_pos h

theorem afterFirstReset_of_unseen (h : s.resetSeen = false) (o : Host.Outcome State Fault Refusal) :
    afterFirstReset s o = .refused .beforeFirstReset := if_neg (ne_true_of_eq_false h)

theorem step_of_illegal (h : s.cfg.legal = false) : step s = .refused .illegalConfig := if_pos h

/-- With nothing presented the block waits (R127). -/
theorem step_of_no_event (hc : s.cfg.legal = true) (hi : s.inputs = []) :
    step s = afterFirstReset s (.next s) := by
  simp [step, advance, hc, hi]

theorem step_of_legal {e : Event} {rest : List Event} (hc : s.cfg.legal = true) (hi : s.inputs = e :: rest) :
    step s = handle e (s.withInputs rest) := by
  simp [step, advance, hc, hi, State.withInputs]

/-- Before the first reset no event but a hard reset has a meaning (R143 item 2). -/
theorem handle_of_unseen {e : Event} (h : s.resetSeen = false) (he : e ≠ .hardReset) :
    handle e s = .refused .beforeFirstReset := by
  cases e with
  | hardReset => exact absurd rfl he
  | _ => exact afterFirstReset_of_unseen h _

end

/-- Settles O6: the step takes the event off the list and hands the word to the dispatch. -/
theorem stepRunsThePresentedCommand : Obligations.StepRunsThePresentedCommand := by
  unfold Obligations.StepRunsThePresentedCommand
  refine ⟨fun s cw rest hr hi => ⟨fun i hd => ?_, fun e hd => ?_⟩, fun s nbits w i hr hd => ?_⟩
  · rw [step_of_command hr hi, runCommand_of_decode hd]
  · rw [step_of_command hr hi, runCommand_of_undecodable hd]
  · have hready : (s.withFetchWord nbits w).Ready := hr
    rw [step_of_command hready rfl, runCommand_of_decode (decode_tableWord hd)]
    rfl

/-- Settles O13: the configuration is looked at first, then whether a reset has been seen, then the event. -/
theorem stopsOnlyWhereNoRuleApplies : Obligations.StopsOnlyWhereNoRuleApplies := by
  unfold Obligations.StopsOnlyWhereNoRuleApplies
  intro s
  refine ⟨step_of_illegal, fun hc hseen hno => ?unseen, fun hr cw rest hi => ?overlap, fun hr cb rest hi => ?codebook,
    fun hr rest hi => ?consumer, fun hr hno_overlap hno_codebook hno_consumer => ?next⟩
  case unseen =>
    cases hi : s.inputs with
    | nil => rw [step_of_no_event hc hi, afterFirstReset_of_unseen hseen]
    | cons e rest =>
      have he : e ≠ .hardReset := fun he => hno rest (he ▸ hi)
      rw [step_of_legal hc hi, handle_of_unseen (s := s.withInputs rest) hseen he]
  case overlap | codebook | consumer =>
    rw [step_of_legal hr.1 hi]
    exact afterFirstReset_of_seen hr.2 _
  case next =>
    cases hi : s.inputs with
    | nil => exact ⟨s, by rw [step_of_no_event hr.1 hi, afterFirstReset_of_seen hr.2]⟩
    | cons e rest =>
      rw [step_of_legal hr.1 hi]
      cases e with
      | command cw =>
        obtain ⟨t, ht⟩ := runCommand_next cw (s.withInputs rest)
        exact ⟨t, (afterFirstReset_of_seen hr.2 _).trans ht⟩
      | hardReset => exact ⟨_, rfl⟩
      | hardResetDuring cw sent => exact ⟨_, afterFirstReset_of_seen hr.2 _⟩
      | delay => exact ⟨_, afterFirstReset_of_seen hr.2 _⟩
      | consumerStops => exact absurd hi (hno_consumer rest)
      | overlappingCommand cw => exact absurd hi (hno_overlap cw rest)
      | codebookChange cb => exact absurd hi (hno_codebook cb rest)

/-- Settles O14: neither waiting nor a delay does anything. -/
theorem waitingChangesNothing : Obligations.WaitingChangesNothing := by
  unfold Obligations.WaitingChangesNothing
  refine fun s hr => ⟨fun hi => ?_, fun rest hi => ?_⟩
  · rw [step_of_no_event hr.1 hi, afterFirstReset_of_seen hr.2]
  · rw [step_of_legal hr.1 hi]
    exact afterFirstReset_of_seen hr.2 _

/-! ### Responses -/

/-- The response code of an error is its number (R121). -/
theorem toNat_number_error (e : ErrorKind) : (Code.error e).number.toNat = e.number := by cases e <;> rfl

/-- Settles O7: the operations by their definitions, the sticky bits by `getLsbD_bit`. -/
theorem responsesAndErrorsInFull : Obligations.ResponsesAndErrorsInFull := by
  unfold Obligations.ResponsesAndErrorsInFull
  refine ⟨fun _ _ _ => rfl, fun _ _ => rfl, fun _ => rfl, fun e n => ?_, rfl⟩
  rw [toNat_number_error, getLsbD_bit]

/-- Every command word gives one response, its data 0 unless the code is `OK`, and appends at most two words (R8,
R57). -/
theorem runCommand_answer {cw : CmdWord} {s t : State} (h : runCommand cw s = .next t) :
    ∃ r ws, t.rsps = s.rsps ++ [r] ∧ (r.code ≠ .ok → r.data = 0#64) ∧ ws.length ≤ 2 ∧ t.enc = s.enc ++ ws := by
  rcases runCommand_answer_cases h with ⟨-, rfl⟩ | ⟨e, rfl⟩ | ⟨i, d, rfl⟩
  · exact ⟨_, [], rfl, fun _ => rfl, Nat.zero_le _, (List.append_nil _).symm⟩
  · exact ⟨_, [], rfl, fun _ => rfl, Nat.zero_le _, (List.append_nil _).symm⟩
  · obtain ⟨ws, hlen, henc⟩ := effect_enc i s
    exact ⟨⟨.ok, d⟩, ws, by simp, fun hr => absurd rfl hr, hlen, henc⟩

/-- Settles O8: `runCommand_answer`, and the layout of a response word. -/
theorem everyCommandAnswersExactlyOnce : Obligations.EveryCommandAnswersExactlyOnce := by
  unfold Obligations.EveryCommandAnswersExactlyOnce
  refine ⟨fun r => ⟨extract_high _ _, extract_low _ _⟩, fun cw s => ?_⟩
  obtain ⟨t, ht⟩ := runCommand_next cw s
  obtain ⟨r, ws, hanswer⟩ := runCommand_answer ht
  exact ⟨t, r, ws, ht, hanswer⟩

/-! ### The histories -/

/-- No command writes the parameters (R3). -/
theorem cfg_runCommand {cw : CmdWord} {s t : State} (h : runCommand cw s = .next t) : t.cfg = s.cfg := by
  rcases runCommand_answer_cases h with ⟨-, rfl⟩ | ⟨e, rfl⟩ | ⟨i, d, rfl⟩
  · rfl
  · rfl
  · exact effect_cfg i s

/-- Settles O49: a command appends to both histories, a reset cut into one appends to `enc` alone, and the other
events to neither. -/
theorem historiesOnlyGrow : Obligations.HistoriesOnlyGrow := by
  unfold Obligations.HistoriesOnlyGrow
  intro s t h
  obtain ⟨-, ⟨rest, rfl⟩ | ⟨cw, rest, -, hrun⟩ | ⟨rest, -, rfl⟩ | ⟨cw, sent, rest, -, rfl⟩⟩ := step_next_cases h
  · exact ⟨⟨[], (List.append_nil _).symm⟩, ⟨[], (List.append_nil _).symm⟩, rfl⟩
  · obtain ⟨r, ws, hrsps, -, -, henc⟩ := runCommand_answer hrun
    exact ⟨⟨ws, henc⟩, ⟨[r], hrsps⟩, (cfg_runCommand hrun :)⟩
  · exact ⟨⟨[], (List.append_nil _).symm⟩, ⟨[], (List.append_nil _).symm⟩, rfl⟩
  · exact ⟨⟨_, rfl⟩, ⟨[], (List.append_nil _).symm⟩, rfl⟩

/-! ### The lock -/

/-- An effect leaves `err` alone, but for that of `SRST` (R113). -/
theorem effect_err {i : Instr} {s : State} (h : i.opcode ≠ 0x01#8) : (effect i s).err = s.err := by
  cases i with
  | srst => exact absurd rfl h
  | qtile => exact chainPush_err _
  | _ => rfl

section
variable {cw : CmdWord} {s t : State}

/-- A word with the opcode of `SRST` that is not `SRST` has a "must be zero" bit set, and fails locked or not (R113). -/
theorem runCommand_of_failed_srst (hop : cw.op = 0x01#8) (hcw : cw ≠ encode (.srst 0#64)) :
    runCommand cw s = .next (raise .badOperand s) := by
  have hd : decode cw = .ok (.srst cw.arg) := decode_of_parts hop rfl
  have harg : cw.arg ≠ 0#64 := fun harg => hcw (by rw [← encode_of_decode hd, harg])
  exact runCommand_of_illFormed hd (beq_eq_false_iff_ne.mpr harg) (.inr (.inl hop))

/-- `RDCSR` changes `err` only by an error (R114). -/
theorem runCommand_of_rdcsr (hop : cw.op = 0x02#8) (h : runCommand cw s = .next t) :
    (∃ e, t = raise e s) ∨ t.err = s.err := by
  have hd : decode cw = .ok (.rdcsr (cw.extractLsb' 40 24) (cw.extractLsb' 32 8) (cw.extractLsb' 0 32)) :=
    decode_of_parts hop (arg_eq_formatC cw)
  rw [runCommand_of_decode hd] at h
  rcases exec_cases h with ⟨-, hex, -⟩ | ⟨-, he⟩ | ⟨-, -, -, d, rfl⟩
  · cases hex
  · exact .inl he
  · exact .inr rfl

/-- What a locked block does with a word other than `SRST` (R123, R126): only the two exempt opcodes can add a bit to
`err`, and a failed `SRST` does nothing else. -/
theorem runCommand_of_locked_cases (hs : s.err ≠ 0#6) (hcw : cw ≠ encode (.srst 0#64))
    (h : runCommand cw s = .next t) :
    (cw.op = 0x01#8 ∧ t = raise .badOperand s) ∨ (cw.op = 0x02#8 ∧ ∃ e, t = raise e s) ∨
      (cw.op ≠ 0x01#8 ∧ t.err = s.err) := by
  by_cases hsrst : cw.op = 0x01#8
  · rw [runCommand_of_failed_srst hsrst hcw] at h
    exact .inl ⟨hsrst, (Host.Outcome.next.inj h).symm⟩
  · by_cases hrdcsr : cw.op = 0x02#8
    · exact .inr ((runCommand_of_rdcsr hrdcsr h).imp (⟨hrdcsr, ·⟩) (⟨hsrst, ·⟩))
    · rw [runCommand_of_locked hs hsrst hrdcsr] at h
      obtain rfl := Host.Outcome.next.inj h
      exact .inr (.inr ⟨hsrst, rfl⟩)

/-- A locked block stays locked under every word but `SRST`, and keeps its bits (R125, R126). -/
theorem err_runCommand_of_locked (hs : s.err ≠ 0#6) (hcw : cw ≠ encode (.srst 0#64))
    (h : runCommand cw s = .next t) : t.err ≠ 0#6 ∧ s.err &&& t.err = s.err := by
  have hraise : ∀ e, (raise e s).err ≠ 0#6 ∧ s.err &&& (raise e s).err = s.err := fun e =>
    ⟨or_bit_ne_zero _ e, by ext k hk; simpa using Or.inl⟩
  rcases runCommand_of_locked_cases hs hcw h with ⟨-, rfl⟩ | ⟨-, e, rfl⟩ | ⟨-, herr⟩
  · exact hraise _
  · exact hraise e
  · rw [herr]
    exact ⟨hs, BitVec.and_self⟩

end

/-- Settles O12: a locked block answers a word other than `SRST` in three ways (`runCommand_of_locked_cases`). -/
theorem nestedErrorsAddBits : Obligations.NestedErrorsAddBits := by
  unfold Obligations.NestedErrorsAddBits
  intro cw s t hs hcw h
  obtain ⟨hlocked, hkept⟩ := err_runCommand_of_locked hs hcw h
  refine ⟨hlocked, hkept, ?_⟩
  rcases runCommand_of_locked_cases hs hcw h with ⟨hop, ht⟩ | ⟨hop, -⟩ | ⟨hop, herr⟩
  · exact ⟨fun _ => .inl hop, fun _ => ht⟩
  · exact ⟨fun _ => .inr hop, fun hsrst => absurd (hsrst.symm.trans hop) (by decide)⟩
  · exact ⟨fun hne => absurd herr hne, fun hsrst => absurd hsrst hop⟩

/-- Settles O11: of the events that do not reset the block a delay leaves `err` and a command leaves a locked block
locked. -/
theorem lockIsLeftOnlyByReset : Obligations.LockIsLeftOnlyByReset := by
  unfold Obligations.LockIsLeftOnlyByReset
  intro s t h hs ht
  obtain ⟨-, ⟨rest, rfl⟩ | ⟨cw, rest, hi, hrun⟩ | ⟨rest, hi, -⟩ | ⟨cw, sent, rest, hi, -⟩⟩ := step_next_cases h
  · exact absurd ht hs
  · by_cases hcw : cw = encode (.srst 0#64)
    · exact ⟨rest, .inl (hcw ▸ hi)⟩
    · exact absurd ht (err_runCommand_of_locked (s := s.withInputs rest) hs hcw hrun).1
  · exact ⟨rest, .inr (.inl hi)⟩
  · exact ⟨rest, .inr (.inr ⟨cw, sent, hi⟩)⟩

end Sys2Proof.Machine

/-! PROOFS. What each command may change, and that the working registers are seen by none (spec/10_state.md R13, R22,
R23 item 6): O27, O42, O43, O44, O52. -/

namespace Sys2Proof.Machine

/-! ### Frames -/

section
variable {i : Instr} {s t : State}

/-- The last response is the one given last. -/
@[simp] theorem lastCode_respond (code : Code) (data : Data) (s : State) :
    (respond code data s).rsps.getLast?.map Rsp.code = some code := by
  simp

/-- A command that is answered `OK` has passed its checks and has its effect: neither error answer is `OK`. -/
theorem effect_of_answered_ok (h : exec i s = .next t) (hok : t.rsps.getLast?.map Rsp.code = some .ok) :
    i.wellFormed s.cfg = true ∧ accepted i s ∧ ∃ d, t = respond .ok d (effect i s) := by
  rcases exec_cases h with ⟨-, -, rfl⟩ | ⟨-, e, rfl⟩ | ⟨-, hwf, hacc, hd⟩
  · rw [answerLocked, lastCode_respond] at hok
    cases hok
  · rw [raise, lastCode_respond] at hok
    cases hok
  · exact ⟨hwf, hacc, hd⟩

/-- A command other than `SRST` that is answered `OK` leaves `err` as it was (R122). -/
theorem err_of_answered_ok (h : exec i s = .next t) (hok : t.rsps.getLast?.map Rsp.code = some .ok)
    (hop : i.opcode ≠ 0x01#8) : t.err = s.err := by
  obtain ⟨-, -, d, rfl⟩ := effect_of_answered_ok h hok
  exact effect_err hop

/-- The four reading commands have no effect (R112, R114, R106, R107). -/
theorem effect_of_reading (hop : i.opcode ∈ [0x00#8, 0x02#8, 0x11#8, 0x12#8]) : effect i s = s := by
  cases i with
  | nop | rdcsr | lookup | lookupb => rfl
  | _ => simp [Instr.opcode] at hop

end

/-- Settles O42: a reading command has no effect but its answer. -/
theorem readsWriteNoField : Obligations.ReadsWriteNoField := by
  unfold Obligations.ReadsWriteNoField
  intro i s t hop h
  refine ⟨?_, fun hok => err_of_answered_ok h hok fun hsrst => ?_⟩
  · rcases exec_frame_cases h with ⟨err, rsps, rfl⟩ | ⟨-, -, -, d, rfl⟩
    · rfl
    · rw [effect_of_reading hop]; rfl
  · rw [hsrst] at hop
    exact absurd hop (by decide)

/-- The scan and the chained push write five fields (R75). -/
theorem chainPush_quantizeInto_frame (tile : Data) (s : State) :
    ∃ scan qres run enc,
      chainPush (quantizeInto tile s) = { s with scan := scan, qres := qres, run := run, enc := enc } ∧
      (s.chain = false → run = s.run ∧ enc = s.enc) := by
  rw [chainPush_quantizeInto]
  by_cases hchain : s.chain = true
  · rw [if_pos hchain]
    exact ⟨_, _, _, _, rfl, fun hun => absurd hchain (ne_true_of_eq_false hun)⟩
  · rw [if_neg hchain]
    exact ⟨_, _, s.run, s.enc, rfl, fun _ => ⟨rfl, rfl⟩⟩

/-- Settles O43: an answer that is not `OK` changes `err` and the responses alone; else it is the command's effect. -/
theorem writesChangeOnlyTheirFields : Obligations.WritesChangeOnlyTheirFields := by
  unfold Obligations.WritesChangeOnlyTheirFields
  refine fun s t => ⟨fun mbz csr val h => ?wrcsr, fun mbz imm h => ?rsym, fun mbz h => ?rend, fun arg h => ?qtile,
    fun i h hok hop => err_of_answered_ok h hok hop⟩
  case wrcsr | rsym | rend => rcases exec_frame_cases h with ⟨err, rsps, rfl⟩ | ⟨-, -, -, d, rfl⟩ <;> rfl
  case qtile =>
    rcases exec_frame_cases h with ⟨err, rsps, rfl⟩ | ⟨-, -, -, d, rfl⟩
    · exact ⟨rfl, fun _ => ⟨rfl, rfl⟩⟩
    · obtain ⟨scan, qres, run, enc, heq, hunchained⟩ := chainPush_quantizeInto_frame arg s
      rw [effect, heq]
      exact ⟨rfl, hunchained⟩

/-! ### Flags -/

/-- From `s` to `t` the two flags go up and down as R13 lets the command `i` move them. -/
structure FlagsRule (i : Instr) (s t : State) : Prop where
  resultSet : s.qres.valid = false → t.qres.valid = true → i.opcode = 0x10#8
  resultCleared : s.qres.valid = true → t.qres.valid = false → i = .srst 0#64
  runOpened : s.run.active = false → t.run.active = true → i.opcode = 0x20#8 ∨ (i.opcode = 0x10#8 ∧ s.chain = true)
  runClosed : s.run.active = true → t.run.active = false → i = .rend 0#64 ∨ i = .srst 0#64

/-- A command that moves neither flag. -/
theorem FlagsRule.of_unchanged {i : Instr} {s t : State} (hq : t.qres.valid = s.qres.valid)
    (hr : t.run.active = s.run.active) : FlagsRule i s t where
  resultSet hf ht := absurd (hf.symm.trans (hq.symm.trans ht)) nofun
  resultCleared ht hf := absurd (hf.symm.trans (hq.trans ht)) nofun
  runOpened hf ht := absurd (hf.symm.trans (hr.symm.trans ht)) nofun
  runClosed ht hf := absurd (hf.symm.trans (hr.trans ht)) nofun

/-- A chained `QTILE` leaves a run open, an unchained one leaves the run alone (R149). -/
theorem active_effect_qtile (arg : Data) (s : State) :
    (effect (.qtile arg) s).run.active = (s.chain || s.run.active) := by
  cases hchain : s.chain with
  | false => rw [effect, chainPush_of_unchained (quantizeInto arg s) hchain]; rfl
  | true => rw [effect, chainPush_of_chained (quantizeInto arg s) hchain]; exact runPush_active

/-- Each effect moves the flags as R13 says. -/
theorem flags_effect {i : Instr} {s : State} (hwf : i.wellFormed s.cfg = true) : FlagsRule i s (effect i s) := by
  cases i with
  | nop | rdcsr | wrcsr | lookup | lookupb => exact .of_unchanged rfl rfl
  | srst mbz =>
    obtain rfl : mbz = 0#64 := eq_of_beq hwf
    exact ⟨fun _ => nofun, fun _ _ => rfl, fun _ => nofun, fun _ _ => .inr rfl⟩
  | rend mbz =>
    obtain rfl : mbz = 0#64 := eq_of_beq hwf
    exact ⟨fun hf ht => absurd (hf.symm.trans ht) nofun, fun ht hf => absurd (hf.symm.trans ht) nofun, fun _ => nofun,
      fun _ _ => .inl rfl⟩
  | rsym mbz imm =>
    exact ⟨fun hf ht => absurd (hf.symm.trans ht) nofun, fun ht hf => absurd (hf.symm.trans ht) nofun,
      fun _ _ => .inl rfl, fun _ hf => absurd (runPush_active.symm.trans hf) nofun⟩
  | qtile arg =>
    have hvalid : (effect (.qtile arg) s).qres.valid = true := by rw [effect, chainPush_qres, quantizeInto_qres]
    have hactive := active_effect_qtile arg s
    refine ⟨fun _ _ => rfl, fun _ hf => absurd (hvalid.symm.trans hf) nofun, fun hidle hopen => .inr ⟨rfl, ?_⟩,
      fun hopen hidle => ?_⟩
    · rwa [hopen, hidle, Bool.or_false, eq_comm] at hactive
    · rw [hopen, hidle, Bool.or_true] at hactive
      cases hactive

/-- Settles O44: without an effect both flags stay; with it, by `flags_effect`. -/
theorem flagsAreSetAndClearedByTheirCommands : Obligations.FlagsAreSetAndClearedByTheirCommands := by
  unfold Obligations.FlagsAreSetAndClearedByTheirCommands
  intro i s t h
  have hflags : FlagsRule i s t := by
    rcases exec_frame_cases h with ⟨err, rsps, rfl⟩ | ⟨-, hwf, -, d, rfl⟩
    · exact .of_unchanged rfl rfl
    · obtain ⟨hset, hcleared, hopened, hclosed⟩ := flags_effect hwf
      exact ⟨hset, hcleared, hopened, hclosed⟩
  exact ⟨hflags.resultSet, hflags.resultCleared, hflags.runOpened, hflags.runClosed⟩

/-- An effect changes the mode only where no run is open before it (`WRCSR`, R115) or after it (`SRST`). -/
theorem effect_rleMode {i : Instr} {s : State} (hacc : accepted i s) (hs : s.run.active = true)
    (ht : (effect i s).run.active = true) : (effect i s).rleMode = s.rleMode := by
  cases i with
  | srst => cases ht
  | wrcsr =>
    obtain ⟨-, -, hidle⟩ := hacc
    rw [hidle] at hs
    cases hs
  | qtile => exact chainPush_rleMode _
  | _ => rfl

/-- The mode is fixed under a command that keeps a run open (R23 item 6). -/
theorem rleMode_runCommand {cw : CmdWord} {s t : State} (h : runCommand cw s = .next t) (hs : s.run.active = true)
    (ht : t.run.active = true) : t.rleMode = s.rleMode := by
  rcases runCommand_frame_cases h with ⟨err, rsps, rfl⟩ | ⟨i, -, -, -, hacc, d, rfl⟩
  · rfl
  · exact effect_rleMode hacc hs ht

/-- Settles O52: a reset closes the run, and a command that keeps it open keeps the mode. -/
theorem modeIsFixedWhileARunIsOpen : Obligations.ModeIsFixedWhileARunIsOpen := by
  unfold Obligations.ModeIsFixedWhileARunIsOpen
  intro s t h hs ht
  obtain ⟨-, ⟨rest, rfl⟩ | ⟨cw, rest, -, hrun⟩ | ⟨rest, -, rfl⟩ | ⟨cw, sent, rest, -, rfl⟩⟩ := step_next_cases h
  · rfl
  · exact rleMode_runCommand (s := s.withInputs rest) hrun hs ht
  · cases ht
  · cases ht

/-! ### The working registers -/

/-- `s` with other working registers and another count of free draws. -/
def State.withScan (scan : ScanRegs) (draws : Nat) (s : State) : State := { s with scan := scan, draws := draws }

section
variable (scan : ScanRegs) (draws : Nat) (s : State)

theorem withScan_chainPush : chainPush (s.withScan scan draws) = (chainPush s).withScan scan draws := by
  unfold chainPush
  rw [apply_ite (State.withScan scan draws)]
  rfl

/-- The own rule of a command reads neither: whatever they hold, the rest of the next state is the same (R22). -/
theorem ownRule_withScan (i : Instr) :
    ∃ scan' draws', ownRule i (s.withScan scan draws) = (ownRule i s).withScan scan' draws' := by
  cases i with
  | nop | rend => exact ⟨scan, draws, rfl⟩
  | srst => exact ⟨freeScan s.cfg draws, draws + 1, rfl⟩
  | rdcsr mbz csr val =>
    refine ⟨scan, draws, ?_⟩
    change rdcsrBody csr (s.withScan scan draws) = (rdcsrBody csr s).withScan scan draws
    have hread : readCsr (s.withScan scan draws) csr = readCsr s csr := rfl
    rw [rdcsrBody, rdcsrBody, hread]
    cases readCsr s csr <;> rfl
  | wrcsr mbz csr val =>
    refine ⟨scan, draws, ?_⟩
    simp only [ownRule, wrcsrBody, apply_ite (State.withScan scan draws)]
    rfl
  | qtile arg =>
    refine ⟨scanTile s.cfg arg, draws, ?_⟩
    have hscan : quantizeInto arg (s.withScan scan draws) =
        (quantizeInto arg s).withScan (scanTile s.cfg arg) draws := rfl
    rw [ownRule, ownRule, qtileBody, qtileBody, hscan, withScan_chainPush]
    rfl
  | lookup mbz imm =>
    refine ⟨scan, draws, ?_⟩
    change lookupBody imm (s.withScan scan draws) = (lookupBody imm s).withScan scan draws
    have hcfg : (s.withScan scan draws).cfg = s.cfg := rfl
    rw [lookupBody, lookupBody, hcfg]
    cases cbRead s.cfg imm.toNat <;> rfl
  | lookupb mbz imm =>
    refine ⟨scan, draws, ?_⟩
    change lookupbBody imm (s.withScan scan draws) = (lookupbBody imm s).withScan scan draws
    have hcfg : (s.withScan scan draws).cfg = s.cfg := rfl
    rw [lookupbBody, lookupbBody, hcfg]
    cases cbReadByte s.cfg imm.toNat <;> rfl
  | rsym mbz imm =>
    refine ⟨scan, draws, ?_⟩
    simp only [ownRule, rsymBody, apply_ite (State.withScan scan draws)]
    rfl

/-- The three ways through the dispatch, each with the checks that lead to it (R53). -/
theorem exec_dispatch_cases (i : Instr) (s : State) :
    ((s.err ≠ 0#6 ∧ i.exempt = false) ∧ exec i s = .next (answerLocked s)) ∨
    (((s.err = 0#6 ∨ i.exempt = true) ∧ i.wellFormed s.cfg = false) ∧ exec i s = .next (raise .badOperand s)) ∨
    (((s.err = 0#6 ∨ i.exempt = true) ∧ i.wellFormed s.cfg = true) ∧ exec i s = .next (ownRule i s)) := by
  by_cases hpass : s.err = 0#6 ∨ i.exempt = true
  · cases hwf : i.wellFormed s.cfg with
    | false => exact .inr (.inl ⟨⟨hpass, rfl⟩, exec_of_illFormed hpass hwf⟩)
    | true => exact .inr (.inr ⟨⟨hpass, rfl⟩, exec_of_passed hpass hwf⟩)
  · obtain ⟨hs, hex⟩ := not_or.mp hpass
    have hex := Bool.eq_false_iff.mpr hex
    exact .inl ⟨⟨hs, hex⟩, exec_of_locked hs hex⟩

theorem exec_withScan (i : Instr) :
    ∃ t scan' draws', exec i s = .next t ∧ exec i (s.withScan scan draws) = .next (t.withScan scan' draws') := by
  rcases exec_dispatch_cases i s with ⟨⟨hs, hex⟩, h⟩ | ⟨⟨hpass, hwf⟩, h⟩ | ⟨⟨hpass, hwf⟩, h⟩
  · exact ⟨_, scan, draws, h, exec_of_locked (s := s.withScan scan draws) hs hex⟩
  · exact ⟨_, scan, draws, h, exec_of_illFormed (s := s.withScan scan draws) hpass hwf⟩
  · obtain ⟨scan', draws', hown⟩ := ownRule_withScan scan draws s i
    exact ⟨_, scan', draws', h, hown ▸ exec_of_passed (s := s.withScan scan draws) hpass hwf⟩

theorem undefinedOp_withScan : undefinedOp (s.withScan scan draws) = (undefinedOp s).withScan scan draws := by
  simp only [undefinedOp, apply_ite (State.withScan scan draws)]
  rfl

end

/-- Settles O27: the dispatch reads `err` and the operand, and no own rule reads the working registers. -/
theorem workingRegistersAreUnobservable : Obligations.WorkingRegistersAreUnobservable := by
  unfold Obligations.WorkingRegistersAreUnobservable
  intro cw s t scan draws h
  rcases runCommand_cases cw s with ⟨i, hd, -, hi⟩ | ⟨hop, hu⟩
  · obtain ⟨t', scan', draws', ht', hscan⟩ := exec_withScan scan draws s i
    obtain rfl := Host.Outcome.next.inj (h.symm.trans (hi.trans ht'))
    exact ⟨scan', draws', (runCommand_of_decode hd).trans hscan⟩
  · obtain rfl := Host.Outcome.next.inj (hu.symm.trans h)
    refine ⟨scan, draws, (runCommand_of_reserved hop _).trans ?_⟩
    exact congrArg Host.Outcome.next (undefinedOp_withScan scan draws s)

end Sys2Proof.Machine

/-! PROOFS. Sentinels, resets and the `enc` port (spec/10_state.md R23 item 7, R24, spec/20_memory.md R41, R43,
spec/70_reset_and_hazards.md R141, R142): O46, O47, O48, O53, O55. -/

namespace Sys2Proof.Machine

/-! ### Which words have the value 0 -/

/-- A word with a count is no sentinel (R95). -/
theorem value_ne_zero_of_count {w : EncWord} (h : 1 ≤ w.count) : w.value ≠ 0 := by
  intro h0
  cases w with
  | w16 v => rw [EncWord.count, show v.toNat = 0 from h0] at h; exact absurd h (by decide)
  | w8 v => rw [EncWord.count, show v.toNat = 0 from h0] at h; exact absurd h (by decide)

/-- What `RleEnd` emits ends with the sentinel, and nothing before it has the value 0 (R89). -/
theorem exists_runEnd_eq {m : RleMode} {r : Run} (h : r.Legal m) :
    ∃ ws, (∀ w ∈ ws, w.value ≠ 0) ∧ runEnd m r = ws ++ [sentinel m] := by
  refine ⟨_, fun w hw => ?_, runEnd_eq m r⟩
  split at hw
  · next hopen =>
    obtain ⟨h1, hc, hs⟩ := h hopen
    rw [List.mem_singleton.mp hw]
    exact value_pack_ne_zero m hs h1 hc
  · cases hw

section
variable {i : Instr} {cw : CmdWord} {s : State}

/-- The words of an effect: those of one push, or those of `RleEnd` where the command is `REND`, or none. -/
theorem effect_words (h : s.Inv) (hwf : i.wellFormed s.cfg = true) :
    ∃ ws, (effect i s).enc = s.enc ++ ws ∧
      ((∀ w ∈ ws, w.value ≠ 0) ∨ i = .rend 0#64 ∧ ws = runEnd s.rleMode s.run) := by
  have hpush : ∀ x, ∀ w ∈ (runPush s.rleMode s.run x).2, w.value ≠ 0 := fun x w hw =>
    value_ne_zero_of_count (count_of_mem_runPush h.openRun hw)
  have hnone : ∀ w ∈ ([] : List EncWord), w.value ≠ 0 := nofun
  cases i with
  | nop | srst | rdcsr | wrcsr | lookup | lookupb => exact ⟨[], (List.append_nil _).symm, .inl hnone⟩
  | rsym mbz imm => exact ⟨_, rfl, .inl (hpush _)⟩
  | rend mbz =>
    obtain rfl : mbz = 0#64 := eq_of_beq hwf
    exact ⟨_, rfl, .inr ⟨rfl, rfl⟩⟩
  | qtile arg =>
    rw [effect, chainPush_quantizeInto]
    split
    · exact ⟨_, rfl, .inl (hpush _)⟩
    · exact ⟨[], (List.append_nil _).symm, .inl hnone⟩

/-- The words a command word emits: none has the value 0, or they are those of `RleEnd`, and then the word is `REND` on
an unlocked block (R89, R123). -/
theorem emission_cases (h : s.Inv) (cw : CmdWord) :
    (∀ w ∈ emission cw s, w.value ≠ 0) ∨
      s.err = 0#6 ∧ cw = encode (.rend 0#64) ∧ emission cw s = runEnd s.rleMode s.run := by
  obtain ⟨t, ht⟩ := runCommand_next cw s
  have henc := enc_runCommand ht
  rcases runCommand_frame_cases ht with ⟨err, rsps, rfl⟩ | ⟨i, hd, hpass, hwf, -, d, rfl⟩
  · rw [List.self_eq_append_right.mp henc]
    exact .inl nofun
  · obtain ⟨ws, hws, hcases⟩ := effect_words h hwf
    obtain rfl : ws = emission cw s := List.append_cancel_left (hws.symm.trans henc)
    refine hcases.imp_right fun ⟨hrend, hwords⟩ => ?_
    subst hrend
    exact ⟨hpass.resolve_right nofun, (encode_of_decode hd).symm, hwords⟩

/-- An initial part of a list that holds what only the last element is, is the whole list. -/
theorem take_eq_self_of_mem {α : Type} {p : α → Prop} {init : List α} {x w : α} {n : Nat} (hinit : ∀ a ∈ init, ¬ p a)
    (hw : w ∈ (init ++ [x]).take n) (hp : p w) : w = x ∧ (init ++ [x]).take n = init ++ [x] := by
  have hwx : w = x := by
    rcases List.mem_append.mp (List.mem_of_mem_take hw) with hmem | hmem
    · exact absurd hp (hinit w hmem)
    · exact List.mem_singleton.mp hmem
  refine ⟨hwx, List.take_of_length_le ?_⟩
  by_contra hlt
  rw [List.length_append, List.length_singleton] at hlt
  rw [List.take_append_of_le_length (by omega)] at hw
  exact hinit w (List.mem_of_mem_take hw) hp

/-- A word of value 0 among the first words of a command is the sentinel of `REND`, the last one. -/
theorem sentinel_of_mem_take_emission (h : s.Inv) {n : Nat} {w : EncWord} (hw : w ∈ (emission cw s).take n)
    (h0 : w.value = 0) :
    s.err = 0#6 ∧ w = sentinel s.rleMode ∧ ((emission cw s).take n).getLast? = some w ∧
      cw = encode (.rend 0#64) := by
  rcases emission_cases h cw with hne | ⟨herr, hcw, hwords⟩
  · exact absurd h0 (hne w (List.mem_of_mem_take hw))
  · obtain ⟨init, hinit, heq⟩ := exists_runEnd_eq h.openRun
    rw [hwords, heq] at hw ⊢
    obtain ⟨rfl, hall⟩ := take_eq_self_of_mem (p := fun w => w.value = 0) hinit hw h0
    exact ⟨herr, rfl, by rw [hall, List.getLast?_concat], hcw⟩

end

/-- Settles O55: the words a step appends are the first of those its command emits, all of them where no reset cuts
it short, and only those of `REND` end with a word of value 0. -/
theorem onlyRendAppendsASentinel : Obligations.OnlyRendAppendsASentinel := by
  unfold Obligations.OnlyRendAppendsASentinel
  intro s t ws h hstep henc w hw h0
  have hnone : t.enc ≠ s.enc := fun hsame => by
    rw [List.self_eq_append_right.mp (hsame.symm.trans henc)] at hw
    cases hw
  obtain ⟨-, ⟨rest, rfl⟩ | ⟨cw, rest, hi, hrun⟩ | ⟨rest, -, rfl⟩ | ⟨cw, sent, rest, hi, rfl⟩⟩ :=
    step_next_cases hstep
  · exact absurd rfl hnone
  · obtain rfl : ws = emission cw (s.withInputs rest) :=
      List.append_cancel_left (henc.symm.trans (enc_runCommand hrun))
    rw [← List.take_length (l := emission cw (s.withInputs rest))] at hw ⊢
    obtain ⟨herr, hsent, hlast, rfl⟩ := sentinel_of_mem_take_emission (h.withInputs rest) hw h0
    exact ⟨herr, hsent, hlast, rest, .inl hi⟩
  · exact absurd rfl hnone
  · obtain rfl : ws = (emission cw (s.withInputs rest)).take sent := (List.append_cancel_left henc).symm
    obtain ⟨herr, hsent, hlast, rfl⟩ := sentinel_of_mem_take_emission (h.withInputs rest) hw h0
    exact ⟨herr, hsent, hlast, rest, .inr ⟨sent, hi⟩⟩

/-! ### Resets -/

/-- Settles O46: the words let out are the first of the command's emission list, and the rest is the hard reset. -/
theorem hardResetDuringACommand : Obligations.HardResetDuringACommand := by
  unfold Obligations.HardResetDuringACommand
  intro s cw rest hr
  obtain ⟨u, hu⟩ := runCommand_next cw (s.withInputs rest)
  refine ⟨u, emission cw (s.withInputs rest), hu, enc_runCommand hu, fun sent hi => ?_⟩
  have hstep : step s = .next (hardResetDuring cw sent (s.withInputs rest)) := by
    rw [step_of_legal hr.1 hi]
    exact afterFirstReset_of_seen hr.2 _
  exact ⟨_, hstep, rfl, rfl, rfl, rfl, rfl, rfl, rfl, rfl, rfl⟩

/-- Settles O47: both are `resetFields`; a hard reset also records that a reset was seen, which it was before. -/
theorem srstAndHardResetAgree : Obligations.SrstAndHardResetAgree := by
  unfold Obligations.SrstAndHardResetAgree
  intro s rest hr hi
  refine ⟨_, _, step_of_hardReset hr.1 hi, exec_of_passed (.inr rfl) rfl, ?_⟩
  rw [hardReset, ← hr.2]
  rfl

/-- Settles O48: each field by the definition of the state after reset, each register computed from them. -/
theorem stateAfterReset : Obligations.StateAfterReset := by
  unfold Obligations.StateAfterReset
  intro c
  refine ⟨rfl, rfl, rfl, rfl, rfl, ?ctrl, ?status, ?err, ?run, ?qres⟩
  case ctrl => simp [ctrl, State.resetWith, RleMode.bit]
  case status => simp [status, State.locked, State.resetWith, Run.idle, QRes.none]
  case err => simp [errCsr, State.resetWith]
  case run => simp [runCsr, State.resetWith, Run.idle]
  case qres => simp [qresCsr, State.resetWith, QRes.none]

/-! ### The `enc` port and what is stored -/

/-- Settles O53: an 8-bit word is widened without loss, and the two bytes of a 16-bit word are its quotient and its
remainder by 256. -/
theorem encPortAndStoredBytes : Obligations.EncPortAndStoredBytes := by
  unfold Obligations.EncPortAndStoredBytes
  refine ⟨fun _ => rfl, fun v => ⟨rfl, BitVec.toNat_setWidth_of_le (by decide)⟩, fun v => ?_⟩
  have hlow : (v.extractLsb' 0 8).toNat = v.toNat % 256 := BitVec.extractLsb'_toNat ..
  have hhigh : (v.extractLsb' 8 8).toNat = v.toNat / 256 := by
    have hv := v.isLt
    rw [BitVec.extractLsb'_toNat, Nat.shiftRight_eq_div_pow]
    omega
  simp [storedBytes, hlow, hhigh]

end Sys2Proof.Machine

/-! PROOFS. Distance, scan, tiles, the codebook's images and the rebuilt frame (spec/20_memory.md R31 to R36,
spec/40_tile_quantizer.md R71 to R74, spec/42_codebook_lut.md R109): O20, O23, O31, O32, O54, O58, O59. -/

namespace Sys2Proof.Machine

/-! ### The Hamming distance -/

/-- The number of 1 bits as a plain sum over the lanes (R72). -/
theorem onesBelow_eq_sum (v : Data) (n : Nat) :
    onesBelow v n = ((List.range n).map fun k => (v.getLsbD k).toNat).sum := by
  induction n with
  | zero => rfl
  | succ n ih => rw [onesBelow, ih, List.sum_range_succ]

section
variable {c : Cfg} {a b : Data}

/-- `L`-bit values are equal when they agree in their `L` lanes (R32). -/
theorem eq_iff_lanes (ha : c.fits a = true) (hb : c.fits b = true) :
    a = b ↔ ∀ k < c.L, a.getLsbD k = b.getLsbD k := by
  refine ⟨fun h _ _ => h ▸ rfl, fun h => BitVec.eq_of_getLsbD_eq fun k _ => ?_⟩
  by_cases hk : k < c.L
  · exact h k hk
  · rw [getLsbD_of_fits ha (Nat.le_of_not_lt hk), getLsbD_of_fits hb (Nat.le_of_not_lt hk)]

/-- The value of `L` ones. -/
theorem getLsbD_laneMask (c : Cfg) (k : Nat) :
    (BitVec.ofNat 64 (2 ^ c.L - 1)).getLsbD k = decide (k < c.L) := by
  have hL := L_le c
  rw [BitVec.getLsbD_ofNat, Nat.testBit_two_pow_sub_one]
  by_cases hk : k < c.L
  · simp [hk, lt_of_lt_of_le hk hL]
  · simp [hk]

theorem hd_eq_zero_iff (ha : c.fits a = true) (hb : c.fits b = true) : hd a b = 0 ↔ a = b := by
  rw [hd_eq_onesBelow ha hb, onesBelow_eq_zero_iff, eq_iff_lanes ha hb]
  simp only [BitVec.getLsbD_xor, bne_eq_false_iff_eq]

theorem hd_comm (a b : Data) : hd a b = hd b a := by rw [hd, hd, BitVec.xor_comm]

/-- The complement in `L` bits is an `L`-bit value. -/
theorem fits_complement (ha : c.fits a = true) : c.fits (a ^^^ BitVec.ofNat 64 (2 ^ c.L - 1)) = true :=
  fits_of_getLsbD fun k hk => by
    rw [BitVec.getLsbD_xor, getLsbD_of_fits ha hk, getLsbD_laneMask, decide_eq_false (Nat.not_lt.mpr hk)]
    rfl

/-- The distance is `L` exactly where every lane differs (R71). -/
theorem hd_eq_L_iff (ha : c.fits a = true) (hb : c.fits b = true) :
    hd a b = c.L ↔ b = a ^^^ BitVec.ofNat 64 (2 ^ c.L - 1) := by
  rw [hd_eq_onesBelow ha hb, onesBelow_eq_self_iff, eq_iff_lanes hb (fits_complement ha)]
  refine forall₂_congr fun k hk => ?_
  rw [BitVec.getLsbD_xor, BitVec.getLsbD_xor, getLsbD_laneMask, decide_eq_true hk]
  cases a.getLsbD k <;> cases b.getLsbD k <;> decide

end

/-- Settles O20: the distance counts the lanes that differ. -/
theorem hammingDistanceLaws : Obligations.HammingDistanceLaws := by
  unfold Obligations.HammingDistanceLaws
  intro c a b ha hb
  refine ⟨hd_le_L ha hb, hd_eq_zero_iff ha hb, hd_comm a b, hd_eq_L_iff ha hb, ?_⟩
  rw [hd_eq_onesBelow ha hb, onesBelow_eq_sum]
  simp only [BitVec.getLsbD_xor]

/-! ### The scan -/

/-- Each pass of the loop takes the invariant one codeword further (R74). -/
theorem scanInv_passes {c : Cfg} {t : Data} (hK : c.K ≤ 2048) :
    ∀ k n r, n + k ≤ c.K → ScanInv c t n r → ScanInv c t (n + k) (scanLoop c k r)
  | 0, _, _, _, h => h
  | k + 1, n, r, hn, h => by
    obtain ⟨w, hw⟩ := (cbRead_isSome_iff c n).mpr (by omega)
    rw [scanLoop, h.index, hw, show n + (k + 1) = n + 1 + k by omega]
    exact scanInv_passes hK k (n + 1) _ (by omega) (scanInv_compare h (by omega) hw)

/-- Settles O58: `n` passes from the start, and the scan is `K` of them. -/
theorem scanLoopInvariant : Obligations.ScanLoopInvariant := by
  unfold Obligations.ScanLoopInvariant
  intro c t n hc hn
  obtain ⟨-, hK, -⟩ := (legal_iff c).mp hc
  have hpasses := scanInv_passes hK n 0 _ (by rwa [Nat.zero_add]) (scanInv_start c t)
  rw [Nat.zero_add] at hpasses
  exact ⟨hpasses, scanInv_scanTile hc t⟩

/-- Settles O23: a successful `QTILE` leaves the registers of the scan, and its result is copied from them. -/
theorem workingRegistersAfterAScan : Obligations.WorkingRegistersAfterAScan := by
  unfold Obligations.WorkingRegistersAfterAScan
  intro arg s hc hs hlt
  have hscan := scanInv_scanTile hc arg
  refine ⟨_, exec_qtile_of_fits hs ((fits_iff _ _).mpr hlt), ?_⟩
  rw [qtileBody, respond_scan, respond_qres, chainPush_scan, chainPush_qres, quantizeInto_scan, quantizeInto_qres]
  exact ⟨hscan.tile, hscan.index, rfl, rfl⟩

/-! ### A flattened tile -/

/-- Each element of a tile moves those before it one bit up (R31). -/
theorem tileValue_concat (es : List Bool) (e : Bool) :
    tileValue (es ++ [e]) = tileValue es <<< 1 ||| (BitVec.ofBool e).setWidth 64 := by
  rw [tileValue, List.foldl_concat, tileValue]

/-- The bits of a tile's value, least significant first, are its elements from the last to the first. -/
theorem getLsbD_tileValue (es : List Bool) : ∀ k < 64, (tileValue es).getLsbD k = (es.reverse[k]?).getD false := by
  induction es using List.reverseRecOn with
  | nil => intro k _; exact BitVec.getLsbD_zero
  | append_singleton es e ih =>
    intro k hk
    rw [tileValue_concat, List.reverse_concat, BitVec.getLsbD_or]
    cases k with
    | zero => cases e <;> simp
    | succ k =>
      have hup : (tileValue es <<< 1).getLsbD (k + 1) = (tileValue es).getLsbD k := by
        rw [BitVec.getLsbD_shiftLeft, decide_eq_true hk]
        rfl
      have hlow : ((BitVec.ofBool e).setWidth 64).getLsbD (k + 1) = false := by simp
      rw [hup, hlow, ih k (by omega), Bool.or_false, List.getElem?_cons_succ]

/-- Settles O54: bit `L-1-k` of the value is the element that many from the end, the `k`-th. -/
theorem tileElementOrder : Obligations.TileElementOrder := by
  unfold Obligations.TileElementOrder
  intro c es hlen
  have hL := L_le c
  refine ⟨fits_of_getLsbD fun k hk => ?_, fun k hk => ?_⟩
  · by_cases h64 : k < 64
    · rw [getLsbD_tileValue es k h64, List.getElem?_eq_none (by rwa [List.length_reverse, hlen])]
      rfl
    · exact BitVec.getLsbD_of_ge _ _ (Nat.le_of_not_lt h64)
  · have hk' : k < es.length := hlen ▸ hk
    rw [element, getLsbD_tileValue es _ (by omega), List.getElem?_reverse (by omega),
      show es.length - 1 - (c.L - 1 - k) = k by omega, List.getElem?_eq_getElem hk']
    rfl

/-! ### The codebook's images -/

/-- Bit `L-1-k` of a codeword is bit `7 - k mod 8` of its byte `k div 8` (R34). -/
theorem getLsbD_codewordByte_div {c : Cfg} (v : Data) {k : Nat} (hk : k < c.L) :
    (codewordByte c v (k / 8)).getLsbD (7 - k % 8) = v.getLsbD (c.L - 1 - k) := by
  have hLB := L_eq_mul_B c
  rw [getLsbD_codewordByte c v _ (by omega)]
  congr 1
  omega

/-- Settles O31: the raw image by `getElem?_rawImage`, the packed one by the byte at its address. -/
theorem rawAndPackedImages : Obligations.RawAndPackedImages := by
  unfold Obligations.RawAndPackedImages
  intro c i k v _ hv hk
  have hbyte : k / 8 < c.B := by
    have hLB := L_eq_mul_B c
    omega
  refine ⟨getElem?_rawImage hv hk, codewordByte c v (k / 8), ?_, getLsbD_codewordByte_div v hk⟩
  rw [getElem?_packedImage (byteAddress_lt (lt_K_of_cbRead hv) hbyte), cbReadByte_of_cbRead hbyte hv]

/-- The first `n` bytes of a codeword, the most significant first, are its upper `8n` bits (R34). -/
theorem foldl_codewordBytes {c : Cfg} {v : Data} (hv : c.fits v = true) : ∀ n ≤ c.B,
    ((List.range n).map (codewordByte c v)).foldl (fun acc (b : Byte) => acc * 256 + b.toNat) 0 =
      v.toNat / 2 ^ (c.L - 8 * n) := by
  have hLB := L_eq_mul_B c
  intro n
  induction n with
  | zero => intro _; exact (Nat.div_eq_of_lt ((fits_iff c v).mp hv)).symm
  | succ n ih =>
    intro hn
    have hexp : c.L - 8 * n = c.L - 8 - 8 * n + 8 := by omega
    have hexp' : c.L - 8 * (n + 1) = c.L - 8 - 8 * n := by omega
    rw [List.range_succ, List.map_append, List.foldl_append, ih (by omega), List.map_singleton, List.foldl_cons,
      List.foldl_nil, toNat_codewordByte, hexp, hexp', Nat.pow_add, ← Nat.div_div_eq_div_mul]
    exact Nat.div_add_mod' _ 256

/-- Settles O32: the bytes of the codeword, all `B` of them, are all its bits. -/
theorem codewordIsItsBytes : Obligations.CodewordIsItsBytes := by
  unfold Obligations.CodewordIsItsBytes
  intro c i v hc hv
  refine ⟨(List.range c.B).map (codewordByte c v), ?_, ?_⟩
  · rw [List.map_map]
    exact List.map_congr_left fun j hj => (cbReadByte_of_cbRead (List.mem_range.mp hj) hv).symm
  · rw [foldl_codewordBytes (fits_of_cbRead hc hv) c.B le_rfl, L_eq_mul_B, Nat.sub_self, Nat.pow_zero, Nat.div_one]

/-! ### The rebuilt frame -/

/-- Row `r` of tile row `ty` is row `ty * TILE + r` of the frame, and the same for columns (R109). -/
theorem div_mod_of_mul_add {n q r : Nat} (hr : r < n) : (q * n + r) / n = q ∧ (q * n + r) % n = r :=
  (Nat.div_mod_unique (Nat.zero_lt_of_lt hr)).mpr ⟨by rw [Nat.mul_comm, Nat.add_comm], hr⟩

/-- Settles O59: the tile and the place in it are the quotients and the remainders of the frame's row and column. -/
theorem rebuiltFrame : Obligations.RebuiltFrame := by
  unfold Obligations.RebuiltFrame
  refine fun c indices tilesPerRow => ⟨fun ty tx r col i w htx hr hcol hi hw => ?_, fun y x hx => ?_⟩
  · have hx : tx * c.side + col < tilesPerRow * c.side :=
      calc tx * c.side + col < tx * c.side + c.side := Nat.add_lt_add_left hcol _
        _ = (tx + 1) * c.side := (Nat.succ_mul tx c.side).symm
        _ ≤ tilesPerRow * c.side := Nat.mul_le_mul_right _ htx
    obtain ⟨hrow, hrow'⟩ := div_mod_of_mul_add (q := ty) hr
    obtain ⟨hcolumn, hcolumn'⟩ := div_mod_of_mul_add (q := tx) hcol
    rw [rebuiltPixel, if_pos hx, hrow, hrow', hcolumn, hcolumn', hi]
    simp [hw, pixel, element]
  · exact if_neg (Nat.not_lt.mpr hx)

end Sys2Proof.Machine

/-! PROOFS. Sequences of symbols and tiles through the encoder (spec/40_tile_quantizer.md R81,
spec/41_run_length_encoder.md R92, R93): O25, O26, O36, O41. -/

namespace Sys2Proof.Machine

/-! ### A long run -/

theorem maximalRuns_replicate (x : BitVec 11) (n : Nat) : maximalRuns (List.replicate (n + 1) x) = [(x, n + 1)] := by
  induction n with
  | zero => rfl
  | succ n ih => rw [List.replicate_succ, maximalRuns_cons_eq, ih, consRun_same]

/-- Settles O36: `n` equal symbols are one maximal run of the closed form. -/
theorem longRunsAreSplit : Obligations.LongRunsAreSplit := by
  unfold Obligations.LongRunsAreSplit
  intro m x n hn
  obtain ⟨n, rfl⟩ : ∃ k, n = k + 1 := ⟨n - 1, by omega⟩
  have henc : rleEncode m (List.replicate (n + 1) x) = runWords m x (n + 1) ++ [sentinel m] := by
    rw [rleEncode_eq_closedForm, rleClosedForm_eq, maximalRuns_replicate, wordsOfRuns, List.flatMap_singleton]
  refine ⟨henc, ?_⟩
  rw [henc, List.length_append, length_runWords, List.length_singleton]

/-! ### Presenting a list of words -/

section
variable {cw : CmdWord} {words : List CmdWord} {s t : State}

/-- No command touches the events to come or the record of a reset. -/
theorem inputs_runCommand (h : runCommand cw s = .next t) : t.inputs = s.inputs ∧ t.resetSeen = s.resetSeen := by
  rcases runCommand_answer_cases h with ⟨-, rfl⟩ | ⟨e, rfl⟩ | ⟨i, d, rfl⟩
  · exact ⟨rfl, rfl⟩
  · exact ⟨rfl, rfl⟩
  · exact ⟨effect_inputs i s, effect_resetSeen i s⟩

theorem ready_runCommand (hr : s.Ready) (h : runCommand cw s = .next t) : t.Ready :=
  ⟨(congrArg Cfg.legal (cfg_runCommand h)).trans hr.1, (inputs_runCommand h).2.trans hr.2⟩

theorem run_succ (h : step s = .next t) (k : Nat) :
    Host.Core.run Sys2Proof.core (k + 1) s = Host.Core.run Sys2Proof.core k t := by
  have hstep : Sys2Proof.core.step s = .next t := h
  simp only [Host.Core.run, hstep]

/-- Words presented to a ready block are executed one after another, a step for each (R144). -/
theorem run_of_runCommands {rest : List Event} (hr : s.Ready) (hi : s.inputs = words.map Event.command ++ rest)
    (h : runCommands words (s.withInputs rest) = .next t) :
    Host.Core.run Sys2Proof.core words.length s = .next t := by
  induction words generalizing s with
  | nil =>
    have hs : s.withInputs rest = s := by rw [← show s.inputs = rest from hi]; rfl
    rw [hs] at h
    exact h
  | cons cw words ih =>
    have hstep := step_of_command hr hi
    obtain ⟨u, hu⟩ := runCommand_next cw (s.withInputs (words.map Event.command ++ rest))
    have hu' : runCommand cw (s.withInputs rest) = .next (u.withInputs rest) := runCommand_withInputs hu rest
    rw [runCommands_cons hu'] at h
    rw [List.length_cons, run_succ (hstep.trans hu)]
    exact ih (ready_runCommand (s := s.withInputs (words.map Event.command ++ rest)) hr hu) (inputs_runCommand hu).1 h

end

/-! ### Pushing symbols one after another -/

/-- `t` is `s` after the symbols `xs` were pushed and the responses `rs` given: the run and `enc` are those of
`pushAll`, and the fields that later pushes read are as before. -/
structure Pushed (xs : List (BitVec 11)) (rs : List Rsp) (s t : State) : Prop where
  cfg : t.cfg = s.cfg
  rleMode : t.rleMode = s.rleMode
  chain : t.chain = s.chain
  err : t.err = s.err
  inputs : t.inputs = s.inputs
  run : t.run = (pushAll s.rleMode s.run xs).1
  enc : t.enc = s.enc ++ (pushAll s.rleMode s.run xs).2
  rsps : t.rsps = s.rsps ++ rs

namespace Pushed

variable {x : BitVec 11} {xs : List (BitVec 11)} {r : Rsp} {rs : List Rsp} {s t u : State}

theorem nil (s : State) : Pushed [] [] s s :=
  ⟨rfl, rfl, rfl, rfl, rfl, rfl, (List.append_nil _).symm, (List.append_nil _).symm⟩

theorem cons (h : Pushed [x] [r] s u) (h' : Pushed xs rs u t) : Pushed (x :: xs) (r :: rs) s t where
  cfg := h'.cfg.trans h.cfg
  rleMode := h'.rleMode.trans h.rleMode
  chain := h'.chain.trans h.chain
  err := h'.err.trans h.err
  inputs := h'.inputs.trans h.inputs
  run := by rw [h'.run, h.run, h.rleMode]; rfl
  enc := by rw [h'.enc, h.enc, h.run, h.rleMode]; simp [pushAll_cons]
  rsps := by rw [h'.rsps, h.rsps, List.append_assoc]; rfl

/-- One `RlePush` and the response to it. -/
theorem respond_rlePush (x : BitVec 11) (d : Data) (s : State) :
    Pushed [x] [⟨.ok, d⟩] s (respond .ok d (rlePush x s)) :=
  ⟨rfl, rfl, rfl, rfl, rfl, rfl, by simp [pushAll_cons], rfl⟩

/-- A chained `QTILE` pushes the index it finds (R75, R81). -/
theorem qtileBody (tile : Data) (hchain : s.chain = true) :
    ∃ d, Pushed [(scanTile s.cfg tile).bestIdx] [⟨.ok, d⟩] s (qtileBody tile s) := by
  rw [qtileBody_eq, if_pos hchain]
  exact ⟨_, rfl, rfl, rfl, rfl, rfl, rfl, by simp [pushAll_cons], rfl⟩

end Pushed

/-- A run that is not open counts as none, whatever its other fields hold (R88, R89). -/
theorem encodeFrom_of_not_active {m : RleMode} {r : Run} (h : r.active = false) (seq : List (BitVec 11)) :
    encodeFrom m r seq = rleEncode m seq := by
  cases seq with
  | nil => rw [encodeFrom_nil, runEnd_eq, h]; rfl
  | cons x xs => rw [rleEncode_cons, encodeFrom_cons, runPush_first h, List.nil_append]

section
variable {s t : State}

/-- The command word of `RSYM` of a symbol. -/
def rsymWord (x : BitVec 11) : CmdWord := encode (.rsym 0#48 (x.setWidth 16))

/-- `RSYM` of a symbol that fits the mode (R90). -/
theorem exec_rsym_of_symbol {x : BitVec 11} (hs : s.err = 0#6) (hx : x.toNat < 2 ^ s.rleMode.symW) :
    exec (.rsym 0#48 (x.setWidth 16)) s = .next (respond .ok 0#64 (rlePush x s)) := by
  have hnum : (x.setWidth 16).toNat = x.toNat := BitVec.toNat_setWidth_of_le (by decide)
  have hback : (x.setWidth 16).setWidth 11 = x := BitVec.setWidth_setWidth_of_le x (by decide)
  have hfit : s.rleMode.symFits (x.setWidth 16).toNat = true := decide_eq_true (hnum.symm ▸ hx)
  rw [exec_of_passed (.inl hs) rfl, ownRule, rsymBody, if_pos hfit, hback]

theorem runCommand_rsymWord {x : BitVec 11} (hs : s.err = 0#6) (hx : x.toNat < 2 ^ s.rleMode.symW) :
    runCommand (rsymWord x) s = .next (respond .ok 0#64 (rlePush x s)) :=
  (runCommand_of_decode (decode_encode _)).trans (exec_rsym_of_symbol hs hx)

theorem runCommand_qtile {tile : Data} (hs : s.err = 0#6) (hfit : tile.toNat < 2 ^ s.cfg.L) :
    runCommand (encode (.qtile tile)) s = .next (qtileBody tile s) :=
  (runCommand_of_decode (decode_encode _)).trans (exec_qtile_of_fits hs ((fits_iff _ _).mpr hfit))

theorem runCommand_rend (hs : s.err = 0#6) :
    runCommand (encode (.rend 0#64)) s = .next (respond .ok 0#64 (rleEnd s)) :=
  (runCommand_of_decode (decode_encode _)).trans (exec_of_passed (.inl hs) rfl)

/-- `RSYM` for each symbol of a sequence that fits the mode (R93). -/
theorem runCommands_rsyms {seq : List (BitVec 11)} (hs : s.err = 0#6)
    (hseq : ∀ x ∈ seq, x.toNat < 2 ^ s.rleMode.symW) :
    ∃ t, runCommands (seq.map rsymWord) s = .next t ∧ Pushed seq (List.replicate seq.length ⟨.ok, 0#64⟩) s t := by
  induction seq generalizing s with
  | nil => exact ⟨s, rfl, Pushed.nil s⟩
  | cons x xs ih =>
    obtain ⟨hx, hxs⟩ := List.forall_mem_cons.mp hseq
    obtain ⟨t, ht, hpushed⟩ := ih (s := respond .ok 0#64 (rlePush x s)) hs hxs
    exact ⟨t, (runCommands_cons (runCommand_rsymWord hs hx) _).trans ht,
      (Pushed.respond_rlePush x 0#64 s).cons hpushed⟩

/-- The index of the codeword nearest to a tile, as the scan finds it (R74). -/
def nearestIndex (c : Cfg) (tile : Data) : BitVec 11 := (scanTile c tile).bestIdx

/-- A chained `QTILE` for each tile of a list (R81). -/
theorem runCommands_qtiles {tiles : List Data} (hs : s.err = 0#6) (hchain : s.chain = true)
    (htiles : ∀ tile ∈ tiles, tile.toNat < 2 ^ s.cfg.L) :
    ∃ t rs, runCommands (tiles.map fun tile => encode (.qtile tile)) s = .next t ∧
      Pushed (tiles.map (nearestIndex s.cfg)) rs s t := by
  induction tiles generalizing s with
  | nil => exact ⟨s, [], rfl, Pushed.nil s⟩
  | cons tile tiles ih =>
    obtain ⟨hfit, hfits⟩ := List.forall_mem_cons.mp htiles
    obtain ⟨d, hfirst⟩ := Pushed.qtileBody tile hchain
    obtain ⟨t, rs, ht, hpushed⟩ :=
      ih (hfirst.err.trans hs) (hfirst.chain.trans hchain) (hfirst.cfg.symm ▸ hfits)
    rw [hfirst.cfg] at hpushed
    exact ⟨t, _, (runCommands_cons (runCommand_qtile hs hfit) _).trans ht, hfirst.cons hpushed⟩

/-- `REND` after the words that push a sequence, no run being open before: `RleEncode` of it is in `enc` (R93). -/
theorem runCommands_then_rend {words : List CmdWord} {xs : List (BitVec 11)} {rs : List Rsp} (hs : s.err = 0#6)
    (hidle : s.run.active = false) (h : runCommands words s = .next t) (hpushed : Pushed xs rs s t) :
    ∃ u, runCommands (words ++ [encode (.rend 0#64)]) s = .next u ∧ u.enc = s.enc ++ rleEncode s.rleMode xs ∧
      u.rsps = s.rsps ++ (rs ++ [⟨.ok, 0#64⟩]) ∧ u.run = Run.idle ∧ u.inputs = s.inputs := by
  refine ⟨respond .ok 0#64 (rleEnd t), ?_, ?_, ?_, rfl, hpushed.inputs⟩
  · rw [runCommands_append h, runCommands_cons (runCommand_rend (hpushed.err.trans hs)), runCommands_nil]
  · rw [respond_enc, rleEnd_enc, hpushed.enc, hpushed.run, hpushed.rleMode, List.append_assoc, ← encodeFrom,
      encodeFrom_of_not_active hidle]
  · rw [respond_rsps, rleEnd_rsps, hpushed.rsps, List.append_assoc]

/-- The outcome of a sequence pushed and ended is complete: `RleEncode` ends with the sentinel (R144). -/
theorem completeRun_of_sequence {u : State} {m : RleMode} {xs : List (BitVec 11)} {n : Nat}
    (hok : ∀ r ∈ s.rsps, r.code = .ok) (henc : u.enc = s.enc ++ rleEncode m xs)
    (hrsps : u.rsps = s.rsps ++ List.replicate n ⟨.ok, 0#64⟩) (hrun : u.run = Run.idle) (pushed : Bool) :
    u.CompleteRun pushed := by
  refine ⟨fun r hr => ?_, by rw [hrun]; rfl, fun _ => ⟨sentinel m, ?_, value_sentinel m⟩⟩
  · rw [hrsps] at hr
    rcases List.mem_append.mp hr with hr | hr
    · exact hok r hr
    · rw [List.eq_of_mem_replicate hr]
  · rw [henc, rleEncode_eq_closedForm, rleClosedForm_eq, ← List.append_assoc, List.getLast?_concat]

/-- `RSYM` for each symbol of a sequence and then `REND` (R93). -/
theorem runCommands_sequence {seq : List (BitVec 11)} (hs : s.err = 0#6) (hidle : s.run.active = false)
    (hseq : ∀ x ∈ seq, x.toNat < 2 ^ s.rleMode.symW) :
    ∃ u, runCommands (seq.map rsymWord ++ [encode (.rend 0#64)]) s = .next u ∧
      u.enc = s.enc ++ rleEncode s.rleMode seq ∧
      u.rsps = s.rsps ++ List.replicate (seq.length + 1) ⟨.ok, 0#64⟩ ∧ u.run = Run.idle ∧ u.inputs = s.inputs := by
  obtain ⟨t, ht, hpushed⟩ := runCommands_rsyms hs hseq
  rw [List.replicate_succ']
  exact runCommands_then_rend hs hidle ht hpushed

end

/-- Settles O41: the machine's run is the list of words executed, and that is `runCommands_sequence`. -/
theorem pushedSequenceIsEncoded : Obligations.PushedSequenceIsEncoded := by
  unfold Obligations.PushedSequenceIsEncoded
  intro s seq rest hr hs hidle hseq hi
  obtain ⟨u, hu, henc, hrsps, hrun, hinputs⟩ := runCommands_sequence (s := s.withInputs rest) hs hidle hseq
  have hwords : s.inputs = (seq.map rsymWord ++ [encode (.rend 0#64)]).map Event.command ++ rest := by
    rw [hi, List.map_append, List.map_map, List.append_assoc]
    rfl
  have hmachine := run_of_runCommands hr hwords hu
  rw [List.length_append, List.length_map, List.length_singleton] at hmachine
  exact ⟨u, hmachine, henc, hrsps, hrun, hinputs, fun hok => completeRun_of_sequence hok henc hrsps hrun⟩

/-! ### Chained tiles -/

/-- Settles O25: the index the chained `QTILE` pushes is the one the other leaves in the result registers, and `RSYM`
of it makes the same push. -/
theorem chainedQtileIsQtileThenRsym : Obligations.ChainedQtileIsQtileThenRsym := by
  unfold Obligations.ChainedQtileIsQtileThenRsym
  intro arg s hc hs hchain hmode hlt
  have hfit : s.cfg.fits arg = true := (fits_iff _ _).mpr hlt
  have hidx : (qtileBody arg { s with chain := false }).qres.idx.toNat < 2 ^ s.rleMode.symW :=
    hmode.symm ▸ BitVec.isLt _
  refine ⟨_, _, _, exec_qtile_of_fits hs hfit, exec_qtile_of_fits (s := { s with chain := false }) hs hfit,
    exec_rsym_of_symbol (s := qtileBody arg { s with chain := false }) hs hidx, rfl, ?_⟩
  rw [qtileBody, chainPush_of_chained (quantizeInto arg s) hchain, ← hchain]
  rfl

/-- Settles O26: the machine's run is the list of words executed; each tile pushes its nearest index
(`runCommands_qtiles`), and `REND` ends the sequence. -/
theorem chainedTilesAreEncoded : Obligations.ChainedTilesAreEncoded := by
  unfold Obligations.ChainedTilesAreEncoded
  intro s tiles rest hr hs hchain hmode hidle htiles hi
  obtain ⟨t, rs, ht, hpushed⟩ := runCommands_qtiles (s := s.withInputs rest) hs hchain htiles
  obtain ⟨u, hu, henc, -, hrun, hinputs⟩ := runCommands_then_rend (s := s.withInputs rest) hs hidle ht hpushed
  have hwords : s.inputs =
      ((tiles.map fun tile => encode (.qtile tile)) ++ [encode (.rend 0#64)]).map Event.command ++ rest := by
    rw [hi, List.map_append, List.map_map, List.append_assoc]
    rfl
  have hmachine := run_of_runCommands hr hwords hu
  rw [List.length_append, List.length_map, List.length_singleton] at hmachine
  refine ⟨u, tiles.map fun tile => (nearestIndex s.cfg tile).toNat, hmachine, ?_, ?_, by rw [hrun]; rfl, hinputs⟩
  · rw [List.forall₂_map_right_iff, List.forall₂_same]
    exact fun tile _ => ⟨_, quantizes_scanTile hr.1 tile⟩
  · rw [henc, List.map_map, show (s.withInputs rest).rleMode = .dict from hmode]
    simp only [Function.comp_def, BitVec.ofNat_toNat, BitVec.setWidth_eq]
    rfl

end Sys2Proof.Machine

/-! PROOFS. Runs of command words and when they are complete (spec/70_reset_and_hazards.md R144): O56, O57. -/

namespace Sys2Proof.Machine

section
variable {cw : CmdWord} {words : List CmdWord} {i : Instr} {s t : State}

/-- One response for each word (R57). -/
theorem length_rsps_runCommands (h : runCommands words s = .next t) :
    t.rsps.length = s.rsps.length + words.length := by
  induction words generalizing s with
  | nil => obtain rfl := Host.Outcome.next.inj h; rfl
  | cons cw words ih =>
    obtain ⟨u, hu⟩ := runCommand_next cw s
    obtain ⟨r, -, hrsps, -⟩ := runCommand_answer hu
    rw [runCommands_cons hu] at h
    rw [ih h, hrsps, List.length_append, List.length_singleton, List.length_cons, Nat.add_assoc, Nat.add_comm 1]

/-! ### Nothing pushed -/

/-- The encoder has not been used: no run is open, and `enc` holds sentinels alone. -/
def State.Unused (s : State) : Prop := s.run.active = false ∧ ∀ w ∈ s.enc, w.value = 0

/-- A command that is answered `OK` and does not push leaves the encoder unused: `REND` emits a sentinel (R89). -/
theorem unused_effect (h : s.Unused) (hrsym : ∀ mbz imm, i ≠ .rsym mbz imm)
    (hqtile : ∀ arg, i = .qtile arg → s.chain = false) : (effect i s).Unused := by
  obtain ⟨hidle, henc⟩ := h
  cases i with
  | nop | rdcsr | wrcsr | lookup | lookupb => exact ⟨hidle, henc⟩
  | srst => exact ⟨rfl, henc⟩
  | rsym mbz imm => exact absurd rfl (hrsym mbz imm)
  | qtile arg =>
    rw [effect, chainPush_of_unchained (quantizeInto arg s) (hqtile arg rfl)]
    exact ⟨hidle, henc⟩
  | rend mbz =>
    refine ⟨rfl, List.forall_mem_append.mpr ⟨henc, ?_⟩⟩
    rw [runEnd_eq, hidle]
    exact List.forall_mem_singleton.mpr (value_sentinel _)

/-- A word that is answered `OK` pushes a symbol unless it is no `RSYM` and no chained `QTILE` (R149). -/
theorem not_pushing_of_answered_ok (hd : decode cw = .ok i) (hok : answersOk cw s = true)
    (hpush : pushesSymbol cw s = false) :
    (∀ mbz imm, i ≠ .rsym mbz imm) ∧ ∀ arg, i = .qtile arg → s.chain = false := by
  refine ⟨fun mbz imm hi => ?_, fun arg hi => ?_⟩ <;> subst hi
  · simp [pushesSymbol, hd, hok] at hpush
  · simpa [pushesSymbol, hd, hok] using hpush

theorem unused_runCommand (h : s.Unused) (hpush : pushesSymbol cw s = false) (hrun : runCommand cw s = .next t) :
    t.Unused := by
  rcases runCommand_frame_cases hrun with ⟨err, rsps, rfl⟩ | ⟨i, hd, -, -, -, d, rfl⟩
  · exact h
  · have hok : answersOk cw s = true := (answersOk_iff hrun).mpr (lastCode_respond _ _ _)
    obtain ⟨hrsym, hqtile⟩ := not_pushing_of_answered_ok hd hok hpush
    exact unused_effect h hrsym hqtile

theorem unused_runCommands (h : s.Unused) (hpush : anyPush words s = false) (hrun : runCommands words s = .next t) :
    t.Unused := by
  induction words generalizing s with
  | nil => obtain rfl := Host.Outcome.next.inj hrun; exact h
  | cons cw words ih =>
    obtain ⟨u, hu⟩ := runCommand_next cw s
    rw [runCommands_cons hu] at hrun
    rw [anyPush_cons hu, Bool.or_eq_false_iff] at hpush
    exact ih (unused_runCommand h hpush.1 hu) hpush.2 hrun

/-! ### Something pushed -/

/-- The encoder shows that it has been used: a run is open, or `enc` has a word. -/
def State.Used (s : State) : Prop := s.run.active = true ∨ s.enc ≠ []

/-- What has been pushed is seen until an `SRST`: the one other command that closes a run emits words (R13, R89). -/
theorem used_runCommand (h : s.Used) (hcw : cw ≠ encode (.srst 0#64)) (hrun : runCommand cw s = .next t) : t.Used := by
  rcases h with hopen | hne
  · rcases runCommand_frame_cases hrun with ⟨err, rsps, rfl⟩ | ⟨i, hd, -, hwf, -, d, rfl⟩
    · exact .inl hopen
    · have hcloses := (flags_effect hwf).runClosed
      cases hactive : (effect i s).run.active with
      | true => exact .inl hactive
      | false =>
        rcases hcloses hopen hactive with rfl | rfl
        · refine .inr ?_
          rw [respond_enc, effect, rleEnd_enc, runEnd_eq]
          simp
        · exact absurd (encode_of_decode hd).symm hcw
  · exact .inr (enc_runCommand hrun ▸ List.append_ne_nil_of_left_ne_nil hne _)

/-- A push leaves a run open (R88). -/
theorem used_of_pushesSymbol (hpush : pushesSymbol cw s = true) (hrun : runCommand cw s = .next t) : t.Used := by
  obtain ⟨hok, hkind⟩ := opcode_of_pushesSymbol hpush
  rw [answersOk_iff hrun] at hok
  left
  rcases hkind with ⟨mbz, imm, hd⟩ | ⟨hchain, arg, hd⟩
  · obtain ⟨-, -, d, rfl⟩ := effect_of_answered_ok ((runCommand_of_decode hd).symm.trans hrun) hok
    exact runPush_active
  · obtain ⟨-, -, d, rfl⟩ := effect_of_answered_ok ((runCommand_of_decode hd).symm.trans hrun) hok
    rw [respond_run, active_effect_qtile, hchain, Bool.true_or]

theorem used_runCommands (h : s.Used ∨ anyPush words s = true) (hrun : runCommands words s = .next t) :
    t.Used ∨ encode (.srst 0#64) ∈ words := by
  induction words generalizing s with
  | nil =>
    obtain rfl := Host.Outcome.next.inj hrun
    exact .inl (h.resolve_right nofun)
  | cons cw words ih =>
    by_cases hcw : cw = encode (.srst 0#64)
    · exact .inr (hcw ▸ List.mem_cons_self)
    · obtain ⟨u, hu⟩ := runCommand_next cw s
      rw [runCommands_cons hu] at hrun
      rw [anyPush_cons hu, Bool.or_eq_true] at h
      have hnext : u.Used ∨ anyPush words u = true := by
        rcases h with hs | hpush | hlater
        · exact .inl (used_runCommand hs hcw hu)
        · exact .inl (used_of_pushesSymbol hpush hu)
        · exact .inr hlater
      exact (ih hnext hrun).imp_right (List.mem_cons_of_mem cw)

end

/-- Settles O56: a list of words never stops and is what the machine does when they are presented; the encoder stays
unused without a push, and shows its use after one unless an `SRST` resets it. -/
theorem runsOfCommands : Obligations.RunsOfCommands := by
  unfold Obligations.RunsOfCommands
  intro c words hc
  obtain ⟨t, ht⟩ := runCommands_next words (State.resetWith c)
  refine ⟨t, ht, ?_, ?_, fun hpush => ?_, fun hpush => ?_⟩
  · rw [length_rsps_runCommands ht]
    exact Nat.zero_add _
  · exact run_of_runCommands (s := { State.resetWith c with inputs := words.map Event.command }) ⟨hc, rfl⟩
      (List.append_nil _).symm ht
  · exact unused_runCommands ⟨rfl, List.forall_mem_nil _⟩ hpush ht
  · exact or_assoc.mp (used_runCommands (.inr hpush) ht)

/-! ### Complete runs -/

/-- An `OK` effect never locks the block. -/
theorem effect_err_eq_zero {i : Instr} {s : State} (hs : s.err = 0#6) : (effect i s).err = 0#6 := by
  by_cases hop : i.opcode = 0x01#8
  · cases i with
    | srst => rfl
    | _ => simp [Instr.opcode] at hop
  · rw [effect_err hop, hs]

/-- A block whose responses are all `OK` is not locked (R122). -/
theorem err_runCommands_of_all_ok {words : List CmdWord} {s t : State} (hs : s.err = 0#6)
    (h : runCommands words s = .next t) (hok : ∀ r ∈ t.rsps, r.code = .ok) : t.err = 0#6 := by
  refine runCommands_induct (P := fun u => (∀ r ∈ u.rsps, r.code = .ok) → u.err = 0#6) (fun cw s t ih hrun hok => ?_)
    (fun _ => hs) h hok
  rcases runCommand_answer_cases hrun with ⟨-, rfl⟩ | ⟨e, rfl⟩ | ⟨i, d, rfl⟩
  · cases hok _ (List.mem_append_right _ (List.mem_singleton_self _))
  · cases hok _ (List.mem_append_right _ (List.mem_singleton_self _))
  · refine effect_err_eq_zero (ih fun r hr => hok r (List.mem_append_left _ ?_))
    rwa [effect_rsps]

section
variable {c : Cfg} {words : List CmdWord} {t : State}

/-- A list of words has one outcome, so its run is complete exactly when that outcome is. -/
theorem runIsComplete_iff (h : runCommands words (State.resetWith c) = .next t) :
    RunIsComplete c words ↔ t.CompleteRun (anyPush words (State.resetWith c)) := by
  refine ⟨fun ⟨u, hu, hcomplete⟩ => ?_, fun hcomplete => ⟨t, h, hcomplete⟩⟩
  rwa [Host.Outcome.next.inj (h.symm.trans hu)]

/-- A sequence pushed and ended after a complete run makes a complete run. -/
theorem runIsComplete_append_sequence (hcomplete : RunIsComplete c words)
    (h : runCommands words (State.resetWith c) = .next t) {seq : List (BitVec 11)}
    (hseq : ∀ x ∈ seq, x.toNat < 2 ^ t.rleMode.symW) :
    RunIsComplete c (words ++ seq.map rsymWord ++ [encode (.rend 0#64)]) := by
  obtain ⟨hok, hidle, -⟩ := (runIsComplete_iff h).mp hcomplete
  obtain ⟨u, hu, henc, hrsps, hrun, -⟩ :=
    runCommands_sequence (err_runCommands_of_all_ok rfl h hok) hidle hseq
  refine ⟨u, ?_, completeRun_of_sequence hok henc hrsps hrun _⟩
  rw [List.append_assoc, runCommands_append h, hu]

end

/-- The outcome of one `RSYM` and `SRST`: two `OK` responses, no run and no word. -/
def afterDiscard (c : Cfg) (x : BitVec 11) : State :=
  respond .ok 0#64 (resetFields (respond .ok 0#64 (rlePush x (State.resetWith c))))

theorem runCommand_rsymWord_resetWith (c : Cfg) (x : BitVec 11) :
    runCommand (rsymWord x) (State.resetWith c) = .next (respond .ok 0#64 (rlePush x (State.resetWith c))) :=
  runCommand_rsymWord rfl x.isLt

theorem runCommands_discard (c : Cfg) (x : BitVec 11) :
    runCommands [rsymWord x, encode (.srst 0#64)] (State.resetWith c) = .next (afterDiscard c x) := by
  have hsrst : ∀ s, runCommand (encode (.srst 0#64)) s = .next (respond .ok 0#64 (resetFields s)) := fun s =>
    (runCommand_of_decode (decode_encode _)).trans (exec_of_passed (.inr rfl) rfl)
  rw [runCommands_cons (runCommand_rsymWord_resetWith c x), runCommands_cons (hsrst _), runCommands_nil, afterDiscard]

/-- The symbol counts as pushed, though the `SRST` discards it (log entry 22). -/
theorem anyPush_discard (c : Cfg) (x : BitVec 11) :
    anyPush [rsymWord x, encode (.srst 0#64)] (State.resetWith c) = true := by
  have hrun := runCommand_rsymWord_resetWith c x
  have hok : answersOk (rsymWord x) (State.resetWith c) = true := (answersOk_iff hrun).mpr (lastCode_respond _ _ _)
  have hpush : pushesSymbol (rsymWord x) (State.resetWith c) = true := by
    rw [pushesSymbol, rsymWord, decode_encode]
    exact hok
  rw [anyPush_cons hrun, hpush, Bool.true_or]

/-- Settles O57: a run has one outcome (`runIsComplete_iff`); the second clause by `runIsComplete_append_sequence`,
and after the discarded symbol `enc` has no last word. -/
theorem completeRuns : Obligations.CompleteRuns := by
  unfold Obligations.CompleteRuns
  intro c hc
  refine ⟨⟨_, rfl, nofun, rfl, nofun⟩, fun words seq t hcomplete h hseq => ?_, fun words t h hbad hcomplete => ?_,
    fun x => ⟨fun hcomplete => ?_, afterDiscard c x, runCommands_discard c x, ?_, rfl, rfl⟩⟩
  · exact runIsComplete_append_sequence hcomplete h hseq
  · obtain ⟨hok, hidle, -⟩ := (runIsComplete_iff h).mp hcomplete
    rcases hbad with hopen | ⟨r, hr, hcode⟩
    · rw [hidle] at hopen
      cases hopen
    · exact hcode (hok r hr)
  · obtain ⟨-, -, hsentinel⟩ := (runIsComplete_iff (runCommands_discard c x)).mp hcomplete
    obtain ⟨w, hw, -⟩ := hsentinel (anyPush_discard c x)
    cases hw
  · change ∀ r ∈ [(⟨.ok, 0#64⟩ : Rsp), ⟨.ok, 0#64⟩], r.code = .ok
    exact List.forall_mem_cons.mpr ⟨rfl, List.forall_mem_singleton.mpr rfl⟩

end Sys2Proof.Machine
